-- ==== Sys2Proof/Word.lean ====
section
/-! DEFINITION. The two bit-vector types of the block (rule R7): the 8-bit byte and the 32-bit word.
Nothing in the block is signed, so no signed view is defined. -/

namespace Sys2Proof

/-- A byte, bit 7 most significant (R7). As an element of GF(2^8), bit i is the coefficient of x^i (R70). -/
abbrev Byte := BitVec 8

/-- A word, bit 31 most significant (R7). -/
abbrev Word := BitVec 32

end Sys2Proof
end

