-- ==== Sys2Proof/Config.lean ====
section
/-! DEFINITION. What is fixed for every instance of the block (rule R5), and the FREE VALUES: constants without a body
that stand for what the spec leaves unspecified. Nothing in Lean can evaluate one, so a theorem that mentions one holds for
every value it could have. -/

namespace Sys2Proof.Config

/-- The longest command payload: the largest value of the one-byte `LEN` field (R5, R50; decision D10). -/
abbrev maxPayload : Nat := 255

/-- The bytes in one cipher block (R5). -/
abbrev blockBytes : Nat := 16

/-- The bytes in one SHA-256 message block, the size of `BUF` (R5, R10). -/
abbrev bufferBytes : Nat := 64

/-- Byte `j` of `KS` after the `n`-th reset, when the block held `was` before it.
FREE VALUE (R28, R161, U1): unspecified, which includes "unchanged" and "cleared". Log entry 1. -/
opaque resetKs (n : Nat) (was : List Byte) (j : Nat) : Byte

/-- Byte `j` of `BUF` after the `n`-th reset. FREE VALUE (R28, R161, U2). Log entry 1. -/
opaque resetBuf (n : Nat) (was : List Byte) (j : Nat) : Byte

/-- Word `i` of `H` after the `n`-th reset. FREE VALUE (R28, R161, U2). Log entry 1. -/
opaque resetH (n : Nat) (was : List Byte) (i : Nat) : Word

/-- `IDX` after the `n`-th reset. FREE VALUE (R28, R161, U2). Log entry 1. -/
opaque resetIdx (n : Nat) (was : List Byte) : Fin 65

/-- `BITCNT` after the `n`-th reset. FREE VALUE (R28, R161, U2). Log entry 1. -/
opaque resetBitcnt (n : Nat) (was : List Byte) : BitVec 64

/-- The entries of the round-constant table that no rule reads, `RCON[0]` and `RCON[11..14]`.
FREE VALUE (R92, U5, decision D25). Log entry 2. -/
opaque rconUnread (j : Nat) : Word

end Sys2Proof.Config
end

