-- ==== Sys2Proof/Syntax.lean ====
section
/-! DEFINITION. The block's instructions: its nine commands (rule R54), one constructor per row of the opcode table.
The only operand of a command is its payload (R53). A constructor carries a payload of ANY length, because a command with a
length outside its legal column is still that command, and the block answers it with a status (R56). -/

namespace Sys2Proof

/-- One command of the block (R54). -/
inductive Instr where
  /-- `OP` 0x01 GF_MULTIPLY (R74) -/
  | gfMultiply (payload : List Byte)
  /-- `OP` 0x02 SBOX_FWD (R85) -/
  | sboxFwd (payload : List Byte)
  /-- `OP` 0x03 SBOX_INV (R86) -/
  | sboxInv (payload : List Byte)
  /-- `OP` 0x04 EXPAND_KEY (R95) -/
  | expandKey (payload : List Byte)
  /-- `OP` 0x05 ENCRYPT_BLOCK (R111) -/
  | encryptBlock (payload : List Byte)
  /-- `OP` 0x06 DECRYPT_BLOCK (R112) -/
  | decryptBlock (payload : List Byte)
  /-- `OP` 0x07 SHA_START (R131) -/
  | shaStart (payload : List Byte)
  /-- `OP` 0x08 SHA_ADD (R132) -/
  | shaAdd (payload : List Byte)
  /-- `OP` 0x09 SHA_FINISH (R133) -/
  | shaFinish (payload : List Byte)
deriving DecidableEq, Repr

/-- The operand bytes of a command, `PAYLOAD[0]` first (R50, R53). -/
def Instr.payload : Instr → List Byte
  | .gfMultiply p => p
  | .sboxFwd p => p
  | .sboxInv p => p
  | .expandKey p => p
  | .encryptBlock p => p
  | .decryptBlock p => p
  | .shaStart p => p
  | .shaAdd p => p
  | .shaFinish p => p

end Sys2Proof
end

