-- ==== Sys2Proof/WellFormed.lean ====
section
/-! DEFINITION. Which command values are packets: those whose payload length fits the one-byte `LEN` field (rule R50).
Whether that length is one the command accepts is a run-time check with a status of its own (R56), not a matter of form. -/

namespace Sys2Proof

/-- The command can be sent: its payload is at most 255 bytes long (R5, R50, R60 "A payload longer than 255 bytes cannot be
assembled"). -/
abbrev Instr.WellFormed (i : Instr) : Prop := i.payload.length ≤ Config.maxPayload

end Sys2Proof
end

