-- ==== Sys2Proof/Decode.lean ====
section
/-! DEFINITION. Decoding the command stream (rules R50 to R59), total on any bytes, and the encoder written from the same
table; then the two views of the opcode table's numbering that the host asks for. -/

namespace Sys2Proof

/-- What stands at the head of the command stream. -/
inductive Decoded where
  /-- a whole packet of a known opcode, and the number of bytes it takes, `2 + LEN` -/
  | command (i : Instr) (size : Nat)
  /-- a whole packet whose opcode selects no command (R55), and the number of bytes it takes -/
  | illegalOpcode (op : Byte) (size : Nat)
  /-- fewer than `2 + LEN` bytes: no command has been received (R58) -/
  | short
deriving DecidableEq, Repr

/-- The opcode map (R54). `none` for 0x00 and 0x0A to 0xFF, which select no command (R55). -/
def instrOf (op : Byte) (payload : List Byte) : Option Instr :=
  match op.toNat with
  | 0x01 => some (.gfMultiply payload)
  | 0x02 => some (.sboxFwd payload)
  | 0x03 => some (.sboxInv payload)
  | 0x04 => some (.expandKey payload)
  | 0x05 => some (.encryptBlock payload)
  | 0x06 => some (.decryptBlock payload)
  | 0x07 => some (.shaStart payload)
  | 0x08 => some (.shaAdd payload)
  | 0x09 => some (.shaFinish payload)
  | _ => none

/-- Decode the head of the command stream: byte 0 is `OP`, byte 1 is `LEN`, then `LEN` payload bytes (R50).
The number of bytes taken is `2 + LEN` whatever the opcode (R57, R59). -/
def decode : List Byte → Decoded
  | op :: len :: rest =>
    if rest.length < len.toNat then .short
    else
      match instrOf op (rest.take len.toNat) with
      | some i => .command i (2 + len.toNat)
      | none => .illegalOpcode op (2 + len.toNat)
  | _ => .short

/-- The opcode of a command (R54). -/
def Instr.opcode : Instr → Byte
  | .gfMultiply _ => 0x01
  | .sboxFwd _ => 0x02
  | .sboxInv _ => 0x03
  | .expandKey _ => 0x04
  | .encryptBlock _ => 0x05
  | .decryptBlock _ => 0x06
  | .shaStart _ => 0x07
  | .shaAdd _ => 0x08
  | .shaFinish _ => 0x09

/-- The packet `OP`, `LEN`, payload of any opcode byte with any payload (R50; the `.cmd` line of R60). -/
def packet (op : Byte) (payload : List Byte) : List Byte :=
  op :: BitVec.ofNat 8 payload.length :: payload

/-- The bytes of a command, the first sent first (R50). -/
def encode (i : Instr) : List Byte := packet i.opcode i.payload

/-- Byte `k` of the packet whose bits are `w` as the opcode table numbers them: 16-bit words, the first in bits 15:0, each
with its first byte in its upper half, so that `OP` is `header[15:8]` and `LEN` is `header[7:0]` (R52). -/
def tableByte (w k : Nat) : Byte :=
  BitVec.ofNat 8 (w >>> (16 * (k / 2) + (if k % 2 = 0 then 8 else 0)))

/-- The packet of `2 + LEN` bytes whose low `nbits` bits are those of `w` and whose other bits are 0. -/
def tableBytes (nbits w : Nat) : List Byte :=
  let v := w % 2 ^ nbits
  (List.range (2 + (tableByte v 1).toNat)).map (tableByte v)

/-- The command the decoder reads from a packet whose bits are `w`, numbered as the opcode table numbers them. -/
def decodeTableWord (nbits w : Nat) : Option Instr :=
  match decode (tableBytes nbits w) with
  | .command i _ => some i
  | _ => none

end Sys2Proof
end

