-- ==== Sys2Proof/Machine/State.lean ====
section
/-! DEFINITION. The state of one instance of the block (rules R10 to R29), plain data, and its value after reset (R28). -/

namespace Sys2Proof.Machine

/-- The legal values of `KSIZE` (R14). -/
inductive KeySize where
  /-- 0: no key has been expanded since reset -/
  | noKey
  /-- 16: a 128-bit key -/
  | bytes16
  /-- 24: a 192-bit key -/
  | bytes24
  /-- 32: a 256-bit key -/
  | bytes32
deriving DecidableEq, Repr

/-- The key slot (R14 to R16). -/
structure KeySlot where
  /-- `KSIZE`, the size in bytes of the key last expanded with success, or 0 -/
  ksize : KeySize
  /-- `KS[0..239]`, the schedule store -/
  ks : Vector Byte 240
deriving DecidableEq, Repr

/-- `PHASE`, the state of the digest engine (R18). -/
inductive Phase where
  /-- after reset, before any SHA_START -/
  | idle
  /-- from a SHA_START until the next SHA_FINISH -/
  | accumulating
  /-- from a SHA_FINISH until the next SHA_START -/
  | finalized
deriving DecidableEq, Repr

/-- The digest context (R18 to R22). -/
structure DigestContext where
  /-- `PHASE` -/
  phase : Phase
  /-- `H[0..7]`, the running hash (R19) -/
  h : Vector Word 8
  /-- `BUF[0..63]`, the message buffer (R20) -/
  buf : Vector Byte 64
  /-- `IDX`, the fill index, 0..64 (R21) -/
  idx : Fin 65
  /-- `BITCNT`, the total bit count (R22) -/
  bitcnt : BitVec 64
deriving DecidableEq, Repr

/-- When a reset arrives (R160 "at any time", R162). With a part of a packet in hand it makes no difference. -/
inductive ResetTime where
  /-- every whole packet ahead of it has been performed and answered -/
  | betweenCommands
  /-- the whole packet directly ahead of it, if there is one, is being performed and is not yet answered -/
  | duringCommand
deriving DecidableEq, Repr

/-- What the host can do to the block (R165): send a byte of a command, or cause the reset event (R160). -/
inductive HostEvent where
  | byte (b : Byte)
  | reset (time : ResetTime)
deriving DecidableEq, Repr

/-- The state of one instance. `key` and `digest` are all of the block's persistent stores (R10). `input` and `output` are the
two byte streams of R30, which the transport holds; `resets` is the MODEL's own counter, read only as an argument of the free
values of Config. The transient stores `ST`, `W`, `a..h` and `w` do not exist between commands (R10, R28). -/
structure State where
  /-- the key slot: `KSIZE`, `KS` -/
  key : KeySlot
  /-- the digest context: `PHASE`, `H`, `BUF`, `IDX`, `BITCNT` -/
  digest : DigestContext
  /-- what the host has sent and the block has not yet taken, oldest first (R30) -/
  input : List HostEvent
  /-- the response bytes sent since the last reset, oldest first (R30, R47) -/
  output : List Byte
  /-- how many reset events there have been since power-on -/
  resets : Nat
deriving DecidableEq, Repr

/-- Why the machine could stop with a fault. There is NO constructor: the spec names no fault, and every byte sequence has
a defined response (R9 point 5, R57, R147). -/
inductive Fault where
deriving DecidableEq, Repr

/-- Why the model could have no meaning for a command. -/
inductive Refusal where
  /-- Raised by no arm of `exec`: every command has its meaning. It would be safe: the model stops where the block goes on. -/
  | notModelled (mnemonic : String)
deriving DecidableEq, Repr

/-- The key slot a reset leaves (R28, R161): no key, and a schedule store of unspecified content. -/
def KeySlot.afterReset (n : Nat) (was : List Byte) : KeySlot :=
  { ksize := .noKey, ks := Vector.ofFn fun j => Config.resetKs n was j.val }

/-- The digest context a reset leaves (R28, R161): phase Idle, and stores of unspecified content. -/
def DigestContext.afterReset (n : Nat) (was : List Byte) : DigestContext :=
  { phase := .idle
    h := Vector.ofFn fun i => Config.resetH n was i.val
    buf := Vector.ofFn fun j => Config.resetBuf n was j.val
    idx := Config.resetIdx n was
    bitcnt := Config.resetBitcnt n was }

/-- The state right after reset (R28, R161): `KSIZE` = 0, `PHASE` = Idle, both streams empty, every other store unspecified
(a free value of Config, DESIGN CHOICE, log entry 1). The counter `resets` starts at 0 (DESIGN CHOICE, log entry 3). -/
def State.reset : State :=
  { key := KeySlot.afterReset 0 []
    digest := DigestContext.afterReset 0 []
    input := []
    output := []
    resets := 0 }

end Sys2Proof.Machine
end

