-- ==== Sys2Proof/Machine/Flags.lean ====
section
/-! DEFINITION. The block has no flags and no condition codes (rule R13); the one condition a command reports is the status
byte of its response. Here: the status set with its codes (R140) and the response packet (R51). -/

namespace Sys2Proof.Machine

/-- The statuses of R140. -/
inductive Status where
  /-- the command was performed -/
  | ok
  /-- the key is not 16, 24 or 32 bytes, or no key is loaded -/
  | invalidKeySize
  /-- the cipher input is not 16 bytes -/
  | invalidBlockLength
  /-- a digest command on a context that cannot take it -/
  | digestMisuse
  /-- reserved: no rule returns it (R155) -/
  | allocationFailure
  /-- unknown opcode, or a wrong payload length for a command of fixed shape -/
  | illegalCommand
deriving DecidableEq, Repr

/-- The code of a status (R140). -/
def statusCode : Status → Byte
  | .ok => 0x00
  | .invalidKeySize => 0x01
  | .invalidBlockLength => 0x02
  | .digestMisuse => 0x03
  | .allocationFailure => 0x04
  | .illegalCommand => 0x05

/-- The response packet: `STATUS`, `RLEN`, then `RLEN` result bytes, `RESULT[0]` first (R51). -/
def responsePacket (st : Status) (result : List Byte) : List Byte :=
  statusCode st :: BitVec.ofNat 8 result.length :: result

end Sys2Proof.Machine
end

