-- ==== Sys2Proof/Machine/Ops.lean ====
section
/-! DEFINITION. The operations the commands share: byte order (rule R33), the two ways a command ends (R8: `respond OK` and
`raise`), taking bytes from the command stream (R30, R57, R58) and the reset event (R160 to R162). -/

namespace Sys2Proof.Machine

/-- A step's answer. -/
abbrev Result := Host.Outcome State Fault Refusal

/-! ### Byte order (R7, R33): the first byte is the most significant -/

/-- `be32(b0, b1, b2, b3) = b0·2^24 + b1·2^16 + b2·2^8 + b3` (R7). -/
def be32 (b0 b1 b2 b3 : Byte) : Word := b0 ++ b1 ++ b2 ++ b3

/-- `bytes_be32(w)`: `w[31:24], w[23:16], w[15:8], w[7:0]` (R7). -/
def bytesBe32 (w : Word) : List Byte :=
  [w.extractLsb' 24 8, w.extractLsb' 16 8, w.extractLsb' 8 8, w.extractLsb' 0 8]

/-- `bytes_be64(v)`: the eight bytes of a 64-bit value, most significant first (R7). -/
def bytesBe64 (v : BitVec 64) : List Byte :=
  [v.extractLsb' 56 8, v.extractLsb' 48 8, v.extractLsb' 40 8, v.extractLsb' 32 8,
   v.extractLsb' 24 8, v.extractLsb' 16 8, v.extractLsb' 8 8, v.extractLsb' 0 8]

/-- Byte `j` of a byte string. Every index a rule computes is in range (R32), so the last argument of `getD` is never the answer. -/
def byteAt (bs : List Byte) (j : Nat) : Byte := bs.getD j 0

/-- Word `i` of a list of words. Every index a rule computes is in range (R32). -/
def wordAt (ws : List Word) (i : Nat) : Word := ws.getD i 0

/-- Word `i` of a byte string read as big-endian words: `be32(B[4i], B[4i+1], B[4i+2], B[4i+3])` (R33). -/
def be32At (bs : List Byte) (i : Nat) : Word :=
  be32 (byteAt bs (4 * i)) (byteAt bs (4 * i + 1)) (byteAt bs (4 * i + 2)) (byteAt bs (4 * i + 3))

/-- The words in order, each big-endian (R33, R94, R129). -/
def wordsToBytes (ws : List Word) : List Byte := ws.flatMap bytesBe32

/-- The store `v` with its first bytes replaced by `bs`; the bytes beyond `bs` keep what they held. -/
def overlay {n : Nat} (v : Vector Byte n) (bs : List Byte) : Vector Byte n :=
  Vector.ofFn fun j => if j.val < bs.length then byteAt bs j.val else v[j.val]

/-! ### How a command ends (R8) -/

/-- One response packet leaves on the response stream (R47, R51). -/
def emit (st : Status) (result : List Byte) (s : State) : State :=
  { s with output := s.output ++ responsePacket st result }

/-- `respond OK(P)`: end the command with status `OK` and result `P` (R8). -/
def respondOk (result : List Byte) (s : State) : Result := .next (emit .ok result s)

/-- `raise <Status>`: end the command at once; no store is changed and the response has no result (R8, R143). This is the whole
of what stands for taking an exception on this block (R147). -/
def raise (st : Status) (s : State) : Result := .next (emit st [] s)

/-! ### The command stream (R30) -/

/-- The bytes at the head of the host's events, up to the first reset. -/
def leadingBytes : List HostEvent → List Byte
  | .byte b :: es => b :: leadingBytes es
  | .reset _ :: _ => []
  | [] => []

/-- What the host has offered of the next command (R50). -/
def fetchBytes (s : State) : List Byte := leadingBytes s.input

/-- The state with the `n` bytes of a packet taken from the command stream (R57). -/
def consume (n : Nat) (s : State) : State := { s with input := s.input.drop n }

/-- The command stream with `bytes` offered ahead of what is there. -/
def offer (bytes : List Byte) (s : State) : State :=
  { s with input := bytes.map .byte ++ s.input }

/-- The same state, with a reset that is the very next event counted as one between commands: no command is in hand. -/
def settle (s : State) : State :=
  match s.input with
  | .reset _ :: rest => { s with input := .reset .betweenCommands :: rest }
  | _ => s

/-! ### Reset (R160 to R162) -/

/-- A byte of `PHASE` for `residue`. -/
def phaseByte : Phase → Byte
  | .idle => 0
  | .accumulating => 1
  | .finalized => 2

/-- `KSIZE` as an integer (R14). -/
def keyBytes : KeySize → Nat
  | .noKey => 0
  | .bytes16 => 16
  | .bytes24 => 24
  | .bytes32 => 32

/-- Everything the block holds, and the packet a reset drops or abandons: what the stores left unspecified by a reset may depend
on, what an abandoned command had already written included (R162). -/
def residue (s : State) : List Byte :=
  [BitVec.ofNat 8 (keyBytes s.key.ksize), phaseByte s.digest.phase, BitVec.ofNat 8 s.digest.idx.val] ++
  s.key.ks.toList ++ wordsToBytes s.digest.h.toList ++ s.digest.buf.toList ++
  bytesBe64 s.digest.bitcnt ++ fetchBytes s

/-- The reset event, with `rest` still to come from the host: no key, phase Idle, the other stores unspecified, the response
stream empty (R160, R161). A packet partly received, or being performed, is abandoned and gets no response (R162). -/
def resetEvent (rest : List HostEvent) (s : State) : State :=
  { key := KeySlot.afterReset (s.resets + 1) (residue s)
    digest := DigestContext.afterReset (s.resets + 1) (residue s)
    input := rest
    output := []
    resets := s.resets + 1 }

/-- What the block does when no whole packet has arrived: if the host has caused a reset, that; else it waits, and keeps its
state (R58, R154, R165). -/
def awaitHost (s : State) : Result :=
  match s.input.drop (fetchBytes s).length with
  | .reset _ :: rest => .next (resetEvent rest s)
  | _ => .next s

/-- Perform the packet of `n` bytes at the head of the command stream, `meaning` being its effect once it is taken (R57): whole,
unless a reset arrives while it is being performed. Then it is abandoned: no response is sent, and the state is that of the
reset (R162). -/
def perform (n : Nat) (meaning : State → Result) (s : State) : Result :=
  match s.input.drop n with
  | .reset .duringCommand :: rest => .next (resetEvent rest s)
  | _ => meaning (consume n s)

/-- A packet whose opcode selects no command: answered `IllegalCommand`, no store changed (R55). -/
def answerIllegalOpcode (s : State) : Result := raise .illegalCommand s

end Sys2Proof.Machine
end

