-- ==== Sys2Proof/Machine/Operands.lean ====
section
/-! DEFINITION. Operand assembly (rule R53): what a payload stands for, for each shape of command, and `none` where its length
is not one the command accepts (R36, R56). -/

namespace Sys2Proof.Machine

/-- GF_MULTIPLY: `a = PAYLOAD[0]`, `b = PAYLOAD[1]`, exactly two bytes. -/
def pairOperand : List Byte → Option (Byte × Byte)
  | [a, b] => some (a, b)
  | _ => none

/-- SBOX_FWD and SBOX_INV: `x = PAYLOAD[0]`, exactly one byte. -/
def byteOperand : List Byte → Option Byte
  | [x] => some x
  | _ => none

/-- SHA_START and SHA_FINISH take no payload: is `LEN` = 0? -/
def noOperand (p : List Byte) : Bool := p.isEmpty

/-- ENCRYPT_BLOCK and DECRYPT_BLOCK: a block of exactly 16 bytes. -/
def blockOperand (p : List Byte) : Option (Vector Byte 16) :=
  if h : p.length = 16 then some ⟨⟨p⟩, h⟩ else none

/-- EXPAND_KEY: the size of a raw key, exactly 16, 24 or 32 bytes. -/
def keyOperand (p : List Byte) : Option KeySize :=
  match p.length with
  | 16 => some .bytes16
  | 24 => some .bytes24
  | 32 => some .bytes32
  | _ => none

end Sys2Proof.Machine
end

