-- ==== Sys2Proof/Machine/GaloisField.lean ====
section
/-! DEFINITION. GaloisFieldArithmetic (spec/40_gf_arithmetic.md): `xtime`, `gmul`, `ginv`, and the meaning of GF_MULTIPLY.
Addition in the field is the bitwise exclusive or (R70). -/

namespace Sys2Proof.Machine

/-- `xtime(a)`: multiplication by x, reduced by 0x11B (R71). -/
def xtime (a : Byte) : Byte :=
  let t := a <<< 1
  if a.getLsbD 7 then t ^^^ 0x1B else t

/-- `n` passes of the loop of R72 with the running values `p`, `a` and `b`. -/
def gmulLoop : Nat → Byte → Byte → Byte → Byte
  | 0, p, _, _ => p
  | n + 1, p, a, b => gmulLoop n (if b.getLsbD 0 then p ^^^ a else p) (xtime a) (b >>> 1)

/-- `gmul(a, b)`: eight passes from `p` = 0 (R72). -/
def gmul (a b : Byte) : Byte := gmulLoop 8 0 a b

/-- `ginv(a)`: the byte `y` with `gmul(a, y)` = 1, and 0 for `a` = 0 by convention (R75). It defines the S-box; no command
computes it. -/
def ginv (a : Byte) : Byte :=
  (((List.range 256).map (BitVec.ofNat 8)).find? fun y => gmul a y == 1).getD 0

/-- GF_MULTIPLY (R74). -/
def execGfMultiply (p : List Byte) (s : State) : Result :=
  match pairOperand p with
  | none => raise .illegalCommand s
  | some (a, b) => respondOk [gmul a b] s

end Sys2Proof.Machine
end

