-- ==== Sys2Proof/Machine/KeySchedule.lean ====
section
/-! DEFINITION. KeySchedule (spec/42_key_schedule.md): sizes, `RotWord`, `RCON`, the expansion, and the meaning of EXPAND_KEY. -/

namespace Sys2Proof.Machine

/-- `R`, the number of rounds, from `KSIZE`: `KSIZE div 4 + 6` (R90, R115). -/
def keyRounds (k : KeySize) : Nat := keyBytes k / 4 + 6

/-- The length of the schedule in bytes, `16·(R+1)` (R14, R90). -/
def scheduleBytes (k : KeySize) : Nat := 16 * (keyRounds k + 1)

/-- `RotWord(w)`: a rotation left by one byte (R91). -/
def rotWord (w : Word) : Word :=
  be32 (w.extractLsb' 16 8) (w.extractLsb' 8 8) (w.extractLsb' 0 8) (w.extractLsb' 24 8)

/-- The ROM `RCON[0..14]` (R92). Entries 0 and 11 to 14 are free values that no rule reads. -/
def rconTable : List Word :=
  [Config.rconUnread 0,
   0x01000000, 0x02000000, 0x04000000, 0x08000000, 0x10000000,
   0x20000000, 0x40000000, 0x80000000, 0x1B000000, 0x36000000,
   Config.rconUnread 11, Config.rconUnread 12, Config.rconUnread 13, Config.rconUnread 14]

/-- `RCON[j]` (R92). -/
def rcon (j : Nat) : Word := wordAt rconTable j

/-- The `temp` of the expansion at word index `i`, from `w[i−1]` (R93). -/
def expandTemp (rc : Nat → Word) (nk i : Nat) (prev : Word) : Word :=
  if i % nk = 0 then subWord (rotWord prev) ^^^ rc (i / nk)
  else if 6 < nk ∧ i % nk = 4 then subWord prev
  else prev

/-- One more word of the schedule: `w[i] = w[i−Nk] ⊕ temp`, where `i` is the number of words there are (R93). -/
def expandNext (rc : Nat → Word) (nk : Nat) (w : List Word) : List Word :=
  let i := w.length
  w ++ [wordAt w (i - nk) ^^^ expandTemp rc nk i (wordAt w (i - 1))]

/-- `n` more words of the schedule. -/
def expandLoop (rc : Nat → Word) (nk : Nat) : Nat → List Word → List Word
  | 0, w => w
  | n + 1, w => expandLoop rc nk n (expandNext rc nk w)

/-- The key as its first `Nk` words, big-endian (R93, R94). -/
def keyWords (key : List Byte) : List Word := (List.range (key.length / 4)).map (be32At key)

/-- `ExpandKey(key)` with the round-constant table as an argument: the words `w[0 .. 4·(R+1)−1]` (R93). The bound is exclusive
(C3). -/
def expandKeyWith (rc : Nat → Word) (key : List Byte) : List Word :=
  let nk := key.length / 4
  expandLoop rc nk (4 * (nk + 7) - nk) (keyWords key)

/-- `ExpandKey(key)` (R93). -/
def expandKey (key : List Byte) : List Word := expandKeyWith rcon key

/-- The schedule as a byte string: the words in order, each big-endian (R94). -/
def keySchedule (key : List Byte) : List Byte := wordsToBytes (expandKey key)

/-- EXPAND_KEY (R95). Bytes of `KS` beyond the new schedule keep what they held. -/
def execExpandKey (p : List Byte) (s : State) : Result :=
  match keyOperand p with
  | none => raise .invalidKeySize s
  | some size =>
    let ks := overlay s.key.ks (keySchedule p)
    respondOk (ks.toList.take (scheduleBytes size)) { s with key := { ksize := size, ks := ks } }

end Sys2Proof.Machine
end

