-- ==== Sys2Proof/Machine/BlockCipher.lean ====
section
/-! DEFINITION. BlockCipherEngine (spec/43_block_cipher.md): the state matrix `ST`, the eight round transforms, the two round
sequences, and the meanings of ENCRYPT_BLOCK and DECRYPT_BLOCK. -/

namespace Sys2Proof.Machine

/-- The cipher state `ST[r][c]`, four rows of four bytes (R17): transient, inside one command only. -/
abbrev Matrix4 := Vector (Vector Byte 4) 4

/-- The matrix whose byte in row `r`, column `c` is `f r c`. -/
def matrixOf (f : Fin 4 → Fin 4 → Byte) : Matrix4 := Vector.ofFn fun r => Vector.ofFn fun c => f r c

/-- `ST[r][c]` (R17). -/
def cell (st : Matrix4) (r c : Fin 4) : Byte := st[r.val][c.val]

/-- `LoadState(B)`: `ST[i mod 4][i div 4] <- B[i]` (R34, R100). -/
def loadState (b : Vector Byte 16) : Matrix4 := matrixOf fun r c => b[4 * c.val + r.val]

/-- `StoreState()`: `B[i] <- ST[i mod 4][i div 4]` (R101). -/
def storeState (st : Matrix4) : Vector Byte 16 :=
  Vector.ofFn fun i => cell st ⟨i.val % 4, by omega⟩ ⟨i.val / 4, by omega⟩

/-- SubBytes (R102). -/
def subBytes (st : Matrix4) : Matrix4 := matrixOf fun r c => sbox (cell st r c)

/-- InvSubBytes (R103). -/
def invSubBytes (st : Matrix4) : Matrix4 := matrixOf fun r c => isbox (cell st r c)

/-- ShiftRows: `NEW[r][c] <- ST[r][(c + r) mod 4]` (R104). -/
def shiftRows (st : Matrix4) : Matrix4 := matrixOf fun r c => cell st r (c + r)

/-- InvShiftRows: `NEW[r][c] <- ST[r][(c − r) mod 4]` (R105). -/
def invShiftRows (st : Matrix4) : Matrix4 := matrixOf fun r c => cell st r (c - r)

/-- The matrix `MC`, row by row (R106). -/
def mixMatrix : Matrix4 :=
  #v[#v[0x02, 0x03, 0x01, 0x01], #v[0x01, 0x02, 0x03, 0x01], #v[0x01, 0x01, 0x02, 0x03], #v[0x03, 0x01, 0x01, 0x02]]

/-- The matrix `IMC`, row by row (R107). -/
def invMixMatrix : Matrix4 :=
  #v[#v[0x0E, 0x0B, 0x0D, 0x09], #v[0x09, 0x0E, 0x0B, 0x0D], #v[0x0D, 0x09, 0x0E, 0x0B], #v[0x0B, 0x0D, 0x09, 0x0E]]

/-- Each column multiplied over GF(2^8) by the matrix `m` on its left (R106, R107). -/
def mulColumns (m st : Matrix4) : Matrix4 :=
  matrixOf fun r c =>
    gmul (cell m r 0) (cell st 0 c) ^^^ gmul (cell m r 1) (cell st 1 c) ^^^
    gmul (cell m r 2) (cell st 2 c) ^^^ gmul (cell m r 3) (cell st 3 c)

/-- MixColumns (R106). -/
def mixColumns (st : Matrix4) : Matrix4 := mulColumns mixMatrix st

/-- InvMixColumns (R107). -/
def invMixColumns (st : Matrix4) : Matrix4 := mulColumns invMixMatrix st

/-- AddRoundKey(k): state byte `i` of the fill order meets schedule byte `16k + i` (R108). -/
def addRoundKey (ks : Vector Byte 240) (k : Nat) (st : Matrix4) : Matrix4 :=
  matrixOf fun r c => cell st r c ^^^ byteAt ks.toList (16 * k + 4 * c.val + r.val)

/-- A full round of `Cipher` (R109). -/
def cipherRound (ks : Vector Byte 240) (st : Matrix4) (k : Nat) : Matrix4 :=
  addRoundKey ks k (mixColumns (shiftRows (subBytes st)))

/-- `Cipher()` with `rounds` = R: round keys 0 to R in rising order, no MixColumns in round R (R109). -/
def cipher (ks : Vector Byte 240) (rounds : Nat) (st : Matrix4) : Matrix4 :=
  let st := (List.range' 1 (rounds - 1)).foldl (cipherRound ks) (addRoundKey ks 0 st)
  addRoundKey ks rounds (shiftRows (subBytes st))

/-- A full round of `InvCipher` (R110). -/
def invCipherRound (ks : Vector Byte 240) (st : Matrix4) (k : Nat) : Matrix4 :=
  invMixColumns (addRoundKey ks k (invSubBytes (invShiftRows st)))

/-- `InvCipher()` with `rounds` = R: round keys R down to 0, no InvMixColumns in the last step (R110). -/
def invCipher (ks : Vector Byte 240) (rounds : Nat) (st : Matrix4) : Matrix4 :=
  let st := (List.range' 1 (rounds - 1)).reverse.foldl (invCipherRound ks) (addRoundKey ks rounds st)
  addRoundKey ks 0 (invSubBytes (invShiftRows st))

/-- The result of ENCRYPT_BLOCK on a block under a key slot (R111, R115). -/
def encryptWith (key : KeySlot) (block : Vector Byte 16) : Vector Byte 16 :=
  storeState (cipher key.ks (keyRounds key.ksize) (loadState block))

/-- The result of DECRYPT_BLOCK on a block under a key slot (R112, R115). -/
def decryptWith (key : KeySlot) (block : Vector Byte 16) : Vector Byte 16 :=
  storeState (invCipher key.ks (keyRounds key.ksize) (loadState block))

/-- ENCRYPT_BLOCK (R111): the length is checked before the key (R144). -/
def execEncryptBlock (p : List Byte) (s : State) : Result :=
  match blockOperand p with
  | none => raise .invalidBlockLength s
  | some block =>
    if s.key.ksize = .noKey then raise .invalidKeySize s
    else respondOk (encryptWith s.key block).toList s

/-- DECRYPT_BLOCK (R112): the length is checked before the key (R144). -/
def execDecryptBlock (p : List Byte) (s : State) : Result :=
  match blockOperand p with
  | none => raise .invalidBlockLength s
  | some block =>
    if s.key.ksize = .noKey then raise .invalidKeySize s
    else respondOk (decryptWith s.key block).toList s

end Sys2Proof.Machine
end

