-- ==== Sys2Proof/Machine/Sha256.lean ====
section
/-! DEFINITION. DigestEngine (spec/44_sha256.md): the functions and constants of SHA-256, the compression step, the buffering,
and the meanings of SHA_START, SHA_ADD and SHA_FINISH. -/

namespace Sys2Proof.Machine

/-! ### Functions (R120, R121) -/

/-- `Ch(x, y, z)` (R120). -/
def ch (x y z : Word) : Word := (x &&& y) ^^^ (~~~x &&& z)

/-- `Maj(x, y, z)` (R120). -/
def maj (x y z : Word) : Word := (x &&& y) ^^^ (x &&& z) ^^^ (y &&& z)

/-- `Σ0(x)` (R121). -/
def bigSigma0 (x : Word) : Word := x.rotateRight 2 ^^^ x.rotateRight 13 ^^^ x.rotateRight 22

/-- `Σ1(x)` (R121). -/
def bigSigma1 (x : Word) : Word := x.rotateRight 6 ^^^ x.rotateRight 11 ^^^ x.rotateRight 25

/-- `σ0(x)` (R121). -/
def smallSigma0 (x : Word) : Word := x.rotateRight 7 ^^^ x.rotateRight 18 ^^^ x >>> 3

/-- `σ1(x)` (R121). -/
def smallSigma1 (x : Word) : Word := x.rotateRight 17 ^^^ x.rotateRight 19 ^^^ x >>> 10

/-! ### Constants -/

/-- The ROM `IV[0..7]` (R123). -/
def shaIv : Vector Word 8 :=
  #v[0x6A09E667, 0xBB67AE85, 0x3C6EF372, 0xA54FF53A, 0x510E527F, 0x9B05688C, 0x1F83D9AB, 0x5BE0CD19]

/-- The ROM `K[0..63]`, row by row (R122). -/
def shaK : List Word :=
  [0x428a2f98, 0x71374491, 0xb5c0fbcf, 0xe9b5dba5, 0x3956c25b, 0x59f111f1, 0x923f82a4, 0xab1c5ed5] ++
  [0xd807aa98, 0x12835b01, 0x243185be, 0x550c7dc3, 0x72be5d74, 0x80deb1fe, 0x9bdc06a7, 0xc19bf174] ++
  [0xe49b69c1, 0xefbe4786, 0x0fc19dc6, 0x240ca1cc, 0x2de92c6f, 0x4a7484aa, 0x5cb0a9dc, 0x76f988da] ++
  [0x983e5152, 0xa831c66d, 0xb00327c8, 0xbf597fc7, 0xc6e00bf3, 0xd5a79147, 0x06ca6351, 0x14292967] ++
  [0x27b70a85, 0x2e1b2138, 0x4d2c6dfc, 0x53380d13, 0x650a7354, 0x766a0abb, 0x81c2c92e, 0x92722c85] ++
  [0xa2bfe8a1, 0xa81a664b, 0xc24b8b70, 0xc76c51a3, 0xd192e819, 0xd6990624, 0xf40e3585, 0x106aa070] ++
  [0x19a4c116, 0x1e376c08, 0x2748774c, 0x34b0bcb5, 0x391c0cb3, 0x4ed8aa4a, 0x5b9cca4f, 0x682e6ff3] ++
  [0x748f82ee, 0x78a5636f, 0x84c87814, 0x8cc70208, 0x90befffa, 0xa4506ceb, 0xbef9a3f7, 0xc67178f2]

/-! ### The compression step -/

/-- One more word of the message schedule, for an index of 16 or more (R124). -/
def scheduleNext (w : List Word) : List Word :=
  let i := w.length
  w ++ [smallSigma1 (wordAt w (i - 2)) + wordAt w (i - 7) + smallSigma0 (wordAt w (i - 15)) + wordAt w (i - 16)]

/-- `n` more words of the message schedule. -/
def scheduleExtend : Nat → List Word → List Word
  | 0, w => w
  | n + 1, w => scheduleExtend n (scheduleNext w)

/-- The message schedule `W[0..63]` of a 64-byte block (R124). -/
def messageSchedule (block : List Byte) : List Word :=
  scheduleExtend 48 ((List.range 16).map (be32At block))

/-- The working variables `a..h` (R10, R23): transient, inside one compression step only. -/
structure WorkingVars where
  a : Word
  b : Word
  c : Word
  d : Word
  e : Word
  f : Word
  g : Word
  h : Word
deriving DecidableEq, Repr

/-- One round, with the round's `K[i]` and `W[i]`: the eight assignments are simultaneous on the old values (R125). -/
def shaRound (v : WorkingVars) (kw : Word × Word) : WorkingVars :=
  let t1 := v.h + bigSigma1 v.e + ch v.e v.f v.g + kw.1 + kw.2
  let t2 := bigSigma0 v.a + maj v.a v.b v.c
  { a := t1 + t2, b := v.a, c := v.b, d := v.c, e := v.d + t1, f := v.e, g := v.f, h := v.g }

/-- The working variables before round 0 (R125). -/
def loadVars (h : Vector Word 8) : WorkingVars :=
  { a := h[0], b := h[1], c := h[2], d := h[3], e := h[4], f := h[5], g := h[6], h := h[7] }

/-- The 64 rounds (R125). -/
def shaRounds (w : List Word) (v : WorkingVars) : WorkingVars := (shaK.zip w).foldl shaRound v

/-- The feed-forward: `a..h` added back into the hash words (R126). -/
def feedForward (h : Vector Word 8) (v : WorkingVars) : Vector Word 8 :=
  #v[h[0] + v.a, h[1] + v.b, h[2] + v.c, h[3] + v.d, h[4] + v.e, h[5] + v.f, h[6] + v.g, h[7] + v.h]

/-- The compression step on a hash and a 64-byte block (R124, R125, R126). -/
def compressBlock (h : Vector Word 8) (block : List Byte) : Vector Word 8 :=
  feedForward h (shaRounds (messageSchedule block) (loadVars h))

/-- `Compress()`: reads `H` and `BUF`, writes `H` only (R127). -/
def compress (d : DigestContext) : DigestContext := { d with h := compressBlock d.h d.buf.toList }

/-! ### Buffering -/

/-- `AppendByte(x)`: store the byte, count 8 bits, and compress at once when the buffer is full (R128). Its precondition, `IDX`
at most 63, holds between commands in phase Accumulating (R21). -/
def appendByte (d : DigestContext) (x : Byte) : DigestContext :=
  let stored : DigestContext :=
    { d with
      buf := d.buf.setIfInBounds d.idx.val x
      idx := Fin.ofNat 65 (d.idx.val + 1)
      bitcnt := d.bitcnt + 8 }
  if d.idx.val + 1 = 64 then { compress stored with idx := 0 } else stored

/-- The bytes of a payload, appended in order (R132). -/
def appendBytes (d : DigestContext) (xs : List Byte) : DigestContext := xs.foldl appendByte d

/-- `DigestBytes()`: the eight hash words, big-endian (R129). -/
def digestBytes (h : Vector Word 8) : List Byte := wordsToBytes h.toList

/-- `for j in n..63: BUF[j] <- 0x00` (R133). -/
def zeroFrom (n : Nat) (buf : Vector Byte 64) : Vector Byte 64 :=
  Vector.ofFn fun j => if n ≤ j.val then 0 else buf[j.val]

/-- `BUF[56..63] <- bytes_be64(v)` (R133). -/
def storeLength (v : BitVec 64) (buf : Vector Byte 64) : Vector Byte 64 :=
  Vector.ofFn fun j => if j.val < 56 then buf[j.val] else byteAt (bytesBe64 v) (j.val - 56)

/-- The 0x80 byte, not counted in `BITCNT`, and the zero fill after it (R133). -/
def padMessage (d : DigestContext) : DigestContext :=
  { d with
    buf := zeroFrom (d.idx.val + 1) (d.buf.setIfInBounds d.idx.val 0x80)
    idx := Fin.ofNat 65 (d.idx.val + 1) }

/-- Where fewer than 8 bytes remain after the 0x80 byte, compress and zero a fresh buffer (R133). -/
def makeRoom (d : DigestContext) : DigestContext :=
  if 64 - d.idx.val < 8 then { compress d with buf := zeroFrom 0 d.buf } else d

/-- The digest context SHA_FINISH leaves (R133). -/
def finishDigest (d : DigestContext) : DigestContext :=
  let padded := makeRoom (padMessage d)
  { compress { padded with buf := storeLength padded.bitcnt padded.buf } with phase := .finalized }

/-- The digest context SHA_START leaves: `BUF` is not written (R131, R20). -/
def startDigest (d : DigestContext) : DigestContext :=
  { d with phase := .accumulating, h := shaIv, idx := 0, bitcnt := 0 }

/-! ### The commands -/

/-- SHA_START (R131). -/
def execShaStart (p : List Byte) (s : State) : Result :=
  if noOperand p then respondOk [] { s with digest := startDigest s.digest }
  else raise .illegalCommand s

/-- SHA_ADD (R132). There is no length check. -/
def execShaAdd (p : List Byte) (s : State) : Result :=
  match s.digest.phase with
  | .accumulating => respondOk [] { s with digest := appendBytes s.digest p }
  | .idle => raise .digestMisuse s
  | .finalized => raise .digestMisuse s

/-- SHA_FINISH (R133): the length is checked before the phase (R144). -/
def execShaFinish (p : List Byte) (s : State) : Result :=
  if noOperand p then
    match s.digest.phase with
    | .accumulating =>
      respondOk (digestBytes (finishDigest s.digest).h) { s with digest := finishDigest s.digest }
    | .idle => raise .digestMisuse s
    | .finalized => raise .digestMisuse s
  else raise .illegalCommand s

end Sys2Proof.Machine
end

