-- ==== Sys2Proof/Machine/Dispatch.lean ====
section
/-! DEFINITION. The one dispatch from a command to its meaning (rule R54), one arm per constructor. -/

namespace Sys2Proof.Machine

def exec (i : Instr) (s : State) : Host.Outcome State Fault Refusal :=
  match i with
  | .gfMultiply p => Sys2Proof.Machine.execGfMultiply p s
  | .sboxFwd p => Sys2Proof.Machine.execSboxFwd p s
  | .sboxInv p => Sys2Proof.Machine.execSboxInv p s
  | .expandKey p => Sys2Proof.Machine.execExpandKey p s
  | .encryptBlock p => Sys2Proof.Machine.execEncryptBlock p s
  | .decryptBlock p => Sys2Proof.Machine.execDecryptBlock p s
  | .shaStart p => Sys2Proof.Machine.execShaStart p s
  | .shaAdd p => Sys2Proof.Machine.execShaAdd p s
  | .shaFinish p => Sys2Proof.Machine.execShaFinish p s

end Sys2Proof.Machine
end

