-- ==== Sys2Proof/Machine/Step.lean ====
section
/-! DEFINITION. One step of the block: perform the next command, whole (rules R37, R41), or answer an illegal one, or reset, or
wait. A reset can abandon the packet in hand (rule R162). -/

namespace Sys2Proof.Machine

/-- One step. A whole packet is taken from the command stream, `2 + LEN` bytes of it (R57), and performed or answered, unless a
reset arrives meanwhile and abandons it (R162); with no whole packet the block waits for the host (R58), whose reset event drops
what there is of one (R162). -/
def step (s : State) : Host.Outcome State Fault Refusal :=
  match decode (fetchBytes s) with
  | .command i n => perform n (exec i) s
  | .illegalOpcode _ n => perform n answerIllegalOpcode s
  | .short => awaitHost s

/-- `s` with the packet whose bits are `w`, as the opcode table numbers them, offered at the head of the command stream. A reset
that stood there stays behind the packet and does not arrive while it is performed. -/
def State.withFetchWord (s : State) (nbits w : Nat) : State := offer (tableBytes nbits w) (settle s)

end Sys2Proof.Machine
end

