-- ==== Sys2Proof/Machine/Assembler.lean ====
section
/-! DEFINITION. What a line of the assembler syntax sends (rule R60), with the two pseudo-instructions (R61, R62). They are the
host's: the block sees only the bytes. The text of a line (mnemonic, hex digits, comment) is not modelled, the line's value is. -/

namespace Sys2Proof.Machine

/-- A line of assembler (R60 to R62). -/
inductive AsmLine where
  /-- one of the nine commands, with any payload -/
  | command (i : Instr)
  /-- `.cmd op, payload`: any opcode byte with any payload -/
  | raw (op : Byte) (payload : List Byte)
  /-- `SHA256 <bytes>` -/
  | sha256 (message : List Byte)
  /-- `ENCRYPT_PADDED <1 to 15 bytes>` -/
  | encryptPadded (bytes : List Byte)
deriving DecidableEq, Repr

/-- At most `fuel` successive chunks of at most `n` bytes; none of an empty string. -/
def chunksOf (n : Nat) : Nat → List Byte → List (List Byte)
  | 0, _ => []
  | _ + 1, [] => []
  | fuel + 1, b :: bs => (b :: bs).take n :: chunksOf n fuel ((b :: bs).drop n)

/-- The successive chunks of at most 255 bytes of a message (R61). -/
def messageChunks (m : List Byte) : List (List Byte) := chunksOf Config.maxPayload m.length m

/-- `SHA256 <bytes>`: SHA_START, one SHA_ADD for each chunk (none when the message is empty), SHA_FINISH (R61). -/
def sha256Commands (m : List Byte) : List Instr :=
  .shaStart [] :: ((messageChunks m).map .shaAdd ++ [.shaFinish []])

/-- `ENCRYPT_PADDED <n bytes, 1 ≤ n ≤ 15>`: ENCRYPT_BLOCK of the bytes and `16 − n` zeros (R62). -/
def encryptPaddedCommand (p : List Byte) : Option Instr :=
  if 1 ≤ p.length ∧ p.length ≤ 15 then
    some (.encryptBlock (p ++ List.replicate (Config.blockBytes - p.length) 0))
  else none

/-- The packet of one line; a payload longer than 255 bytes cannot be assembled (R60). -/
def assemblePacket (op : Byte) (payload : List Byte) : Option (List Byte) :=
  if payload.length ≤ Config.maxPayload then some (packet op payload) else none

/-- The bytes a line sends, and `none` where it cannot be assembled (R60). `LEN` is not checked against R54. -/
def assemble : AsmLine → Option (List Byte)
  | .command i => assemblePacket i.opcode i.payload
  | .raw op payload => assemblePacket op payload
  | .sha256 m => some ((sha256Commands m).flatMap encode)
  | .encryptPadded p => (encryptPaddedCommand p).map encode

end Sys2Proof.Machine
end

