-- ==== Sys2Proof/Safety.lean ====
section
/-! DEFINITION. The terms in which claims about the block are stated: runs of commands, the status each command answers (rule
R141), SHA-256 of a whole message (R136), the invariant of the reachable states (R15, R20 to R22), and when two states cannot be
told apart by any command (R27). -/

namespace Sys2Proof.Machine

/-! ### Runs -/

/-- The commands of a program performed in order (R41). -/
def runCommands : List Instr → State → Result
  | [], s => .next s
  | i :: is, s =>
    match exec i s with
    | .next t => runCommands is t
    | .fault r => .fault r
    | .refused r => .refused r

/-- The stores of the block and nothing of the transport (R10). -/
def stores (s : State) : KeySlot × DigestContext := (s.key, s.digest)

/-! ### Statuses and results -/

/-- The status each command answers, by its payload length and the state: the table of R141 in the order of R144. -/
def expectedStatus (s : State) : Instr → Status
  | .gfMultiply p => if p.length = 2 then .ok else .illegalCommand
  | .sboxFwd p => if p.length = 1 then .ok else .illegalCommand
  | .sboxInv p => if p.length = 1 then .ok else .illegalCommand
  | .expandKey p => if p.length = 16 ∨ p.length = 24 ∨ p.length = 32 then .ok else .invalidKeySize
  | .encryptBlock p =>
    if p.length ≠ 16 then .invalidBlockLength
    else if s.key.ksize = .noKey then .invalidKeySize else .ok
  | .decryptBlock p =>
    if p.length ≠ 16 then .invalidBlockLength
    else if s.key.ksize = .noKey then .invalidKeySize else .ok
  | .shaStart p => if p.length = 0 then .ok else .illegalCommand
  | .shaAdd _ => if s.digest.phase = .accumulating then .ok else .digestMisuse
  | .shaFinish p =>
    if p.length ≠ 0 then .illegalCommand
    else if s.digest.phase = .accumulating then .ok else .digestMisuse

/-- `RLEN` of a command that answers `OK`: fixed by the command (R51, R54). -/
def okResultLength : Instr → Nat
  | .gfMultiply _ => 1
  | .sboxFwd _ => 1
  | .sboxInv _ => 1
  | .expandKey p => 16 * (p.length / 4 + 7)
  | .encryptBlock _ => 16
  | .decryptBlock _ => 16
  | .shaStart _ => 0
  | .shaAdd _ => 0
  | .shaFinish _ => 32

/-! ### Polynomials over GF(2) (R70) -/

/-- The carry-less product of two bytes, as the coefficients of a polynomial of degree at most 14. -/
def carrylessProduct (a b : Byte) : BitVec 16 :=
  (List.range 8).foldl (fun p k => if b.getLsbD k then p ^^^ (a.zeroExtend 16 <<< k) else p) 0

/-- The remainder of such a polynomial modulo x^8+x^4+x^3+x+1 (0x11B), highest term first. -/
def remainder11B (p : BitVec 16) : Byte :=
  ((List.range 7).foldl (fun p k => if p.getLsbD (14 - k) then p ^^^ (0x11B#16 <<< (6 - k)) else p) p).truncate 8

/-! ### SHA-256 of a whole message (R136) -/

/-- `H` folded over the 64-byte blocks of a string. -/
def hashBlocks (h : Vector Word 8) (bs : List Byte) : Vector Word 8 :=
  (chunksOf Config.bufferBytes bs.length bs).foldl compressBlock h

/-- The padded message `M ‖ 80 ‖ zeros ‖ bytes_be64(8n)`, of the least multiple of 64 bytes that fits (R136). For `n` of 2^61 or
more the length field has wrapped (R22, U13). -/
def paddedMessage (m : List Byte) : List Byte :=
  m ++ [0x80] ++ List.replicate ((64 - (m.length + 9) % 64) % 64) 0 ++ bytesBe64 (BitVec.ofNat 64 (8 * m.length))

/-- SHA-256 of a message as R136 describes it. -/
def sha256 (m : List Byte) : List Byte := digestBytes (hashBlocks shaIv (paddedMessage m))

/-! ### The invariant -/

/-- R15: while a key is loaded, the schedule in `KS` is the expansion of the key it begins with. -/
def KeySlot.Valid (k : KeySlot) : Prop :=
  k.ksize ≠ .noKey →
    k.ks.toList.take (scheduleBytes k.ksize) = keySchedule (k.ks.toList.take (keyBytes k.ksize))

/-- R19 to R22: in phase Accumulating the context is that of the message `m` given to SHA_ADD since the last SHA_START. Its whole
blocks are compressed into `H`, the rest of it is `BUF[0..IDX−1]`, and `BITCNT` is 8 times its length. -/
def DigestContext.Holds (d : DigestContext) (m : List Byte) : Prop :=
  d.phase = .accumulating ∧
  d.h = hashBlocks shaIv (m.take (64 * (m.length / 64))) ∧
  d.buf.toList.take d.idx.val = m.drop (64 * (m.length / 64)) ∧
  d.idx.val = m.length % 64 ∧
  d.bitcnt = BitVec.ofNat 64 (8 * m.length)

/-- The invariant of the block. -/
def State.Inv (s : State) : Prop :=
  s.key.Valid ∧ (s.digest.phase = .accumulating → ∃ m, s.digest.Holds m)

/-! ### Observation (R15, R20, R27) -/

/-- Two key slots that no command can tell apart: the same size and, while a key is loaded, the same schedule. -/
def KeySlot.Agree (k k' : KeySlot) : Prop :=
  k.ksize = k'.ksize ∧
  (k.ksize ≠ .noKey →
    k.ks.toList.take (scheduleBytes k.ksize) = k'.ks.toList.take (scheduleBytes k.ksize))

/-- Two digest contexts that no command can tell apart: the same phase and, in phase Accumulating, the same `H`, `IDX`, `BITCNT`
and valid bytes of `BUF`. -/
def DigestContext.Agree (d d' : DigestContext) : Prop :=
  d.phase = d'.phase ∧
  (d.phase = .accumulating →
    d.h = d'.h ∧ d.idx = d'.idx ∧ d.bitcnt = d'.bitcnt ∧
    d.buf.toList.take d.idx.val = d'.buf.toList.take d.idx.val)

/-- Two states of the block that no command can tell apart, with the same bytes on both streams. -/
def State.Agree (s s' : State) : Prop :=
  s.key.Agree s'.key ∧ s.digest.Agree s'.digest ∧ s.input = s'.input ∧ s.output = s'.output

end Sys2Proof.Machine
end

