-- ==== Sys2Proof/Certificates/Slice0/Obligations.lean ====
section
/-! DEFINITION. The statements for the provers, one definition each; OBLIGATIONS.json lists them. A statement about the state a
command leaves gives the whole of that state, so that every store it does not name is unchanged. -/

open Sys2Proof Sys2Proof.Machine

/-! ### The command stream -/

/-- Packets written out byte by byte from the opcode map (R54), one for each command, decode to that command; an unknown opcode
takes its `LEN` payload bytes with it (T41); three packets that stop short are no command. -/
def Obligations.WrittenOutPacketsDecode : Prop :=
  decode [0x01, 0x02, 0x57, 0x83] = .command (.gfMultiply [0x57, 0x83]) 4 ∧
  decode [0x02, 0x01, 0x53] = .command (.sboxFwd [0x53]) 3 ∧
  decode [0x03, 0x01, 0xED] = .command (.sboxInv [0xED]) 3 ∧
  decode [0x04, 0x01, 0x00] = .command (.expandKey [0x00]) 3 ∧
  decode [0x05, 0x02, 0x00, 0x11, 0x06] = .command (.encryptBlock [0x00, 0x11]) 4 ∧
  decode [0x06, 0x00, 0x05] = .command (.decryptBlock []) 2 ∧
  decode [0x07, 0x00] = .command (.shaStart []) 2 ∧
  decode [0x08, 0x03, 0x61, 0x62, 0x63] = .command (.shaAdd [0x61, 0x62, 0x63]) 5 ∧
  decode [0x09, 0x00, 0x07, 0x00] = .command (.shaFinish []) 2 ∧
  decode [0x0A, 0x03, 0x07, 0x00, 0x09, 0x02, 0x01, 0x53] = .illegalOpcode 0x0A 5 ∧
  decode [0x00, 0x00] = .illegalOpcode 0x00 2 ∧
  decode [] = .short ∧ decode [0x07] = .short ∧ decode [0x08, 0x03, 0x61, 0x62] = .short

/-- Decoding the packet of a command, whatever follows it on the stream, gives the command back with every payload byte, and
takes `2 + LEN` bytes (R50, R54, R59). -/
def Obligations.DecodeOfEncodeIsTheCommand : Prop :=
  ∀ (i : Instr) (rest : List Byte), i.WellFormed →
    decode (encode i ++ rest) = .command i (2 + i.payload.length)

/-- Where the decoder reads a command, the bytes it takes are that command's packet, and no others are (R50, R54). -/
def Obligations.EncodeOfDecodeIsThePacket : Prop :=
  ∀ (bs : List Byte) (i : Instr) (n : Nat), decode bs = .command i n →
    i.WellFormed ∧ n = 2 + i.payload.length ∧ n ≤ bs.length ∧ bs.take n = encode i

/-- For every command, legal or not, exactly `2 + LEN` bytes leave the command stream and one response, of at most 240 result
bytes, enters the response stream (R57, R47, R51); but where a reset arrives while it is performed, its bytes leave, no response is
sent and the response stream is empty (R161, R162). How the stream says when a reset arrives is the model's choice (log entry 5). -/
def Obligations.EveryPacketIsTakenWholeAndAnsweredOnce : Prop :=
  ∀ (s : State) (op len : Byte) (p : List Byte) (rest : List HostEvent),
    p.length = len.toNat → s.input = (op :: len :: p).map .byte ++ rest →
    ((∀ es, rest ≠ .reset .duringCommand :: es) →
      ∃ t st r, step s = .next t ∧ t.input = rest ∧ r.length ≤ 240 ∧ t.output = s.output ++ responsePacket st r) ∧
    ∀ es, rest = .reset .duringCommand :: es → ∃ t, step s = .next t ∧ t.input = es ∧ t.output = []

/-- `OP` values 0x00 and 0x0A to 0xFF: answered `IllegalCommand` (0x05) with `RLEN` 0, no store changed (R55), unless a reset
arrives meanwhile (R162, `ResetAbandonsTheCommandInHand`). -/
def Obligations.IllegalOpcodeIsAnsweredIllegalCommand : Prop :=
  ∀ (s : State) (op : Byte) (p : List Byte) (rest : List HostEvent),
    op.toNat = 0 ∨ 0x0A ≤ op.toNat → p.length ≤ 255 →
    s.input = (op :: BitVec.ofNat 8 p.length :: p).map .byte ++ rest → (∀ es, rest ≠ .reset .duringCommand :: es) →
    step s = .next { s with input := rest, output := s.output ++ [0x05, 0x00] }

/-- When the packet of a command stands at the head of the stream, a step is that command's meaning at the state with the packet
taken (R41, R57); but where a reset arrives while it is performed, the step is the reset event at the state as it was before the
command (R162). How the stream says when a reset arrives is the model's choice (log entry 5). -/
def Obligations.StepRunsTheDecodedCommand : Prop :=
  ∀ (s : State) (i : Instr) (rest : List HostEvent), i.WellFormed →
    s.input = (encode i).map .byte ++ rest →
    ((∀ es, rest ≠ .reset .duringCommand :: es) → step s = exec i { s with input := rest }) ∧
    ∀ es, rest = .reset .duringCommand :: es → step s = .next (resetEvent es s)

/-- A command offered by its opcode-table word is what the very next step performs, at the state as it was (R52); a reset that
stood at the very front comes after it.
How a packet is offered, and the numbering of its payload bits, are the model's choice (log entries 6 and 7). -/
def Obligations.OfferedTableWordIsTheCommandRun : Prop :=
  ∀ (s : State) (nbits w : Nat) (i : Instr), decodeTableWord nbits w = some i →
    ((∀ time es, s.input ≠ .reset time :: es) → step (s.withFetchWord nbits w) = exec i s) ∧
    ∀ time es, s.input = .reset time :: es →
      step (s.withFetchWord nbits w) = exec i { s with input := .reset .betweenCommands :: es }

/-- With fewer than `2 + LEN` bytes sent and no reset, the block does nothing and answers nothing (R58, R165). -/
def Obligations.ShortPacketWaits : Prop :=
  ∀ (s : State) (bs : List Byte), s.input = bs.map .byte →
    (bs.length < 2 ∨ ∃ op len p, bs = op :: len :: p ∧ p.length < len.toNat) →
    step s = .next s

/-- The reset event, whatever time it is marked with, drops a partial packet and leaves no key, phase Idle and an empty response
stream (R161, R58).
That the event stands among the host's bytes is the model's choice (log entry 5). -/
def Obligations.ResetDropsThePartialPacketKeyAndDigest : Prop :=
  ∀ (s : State) (bs : List Byte) (time : ResetTime) (rest : List HostEvent), s.input = bs.map .byte ++ .reset time :: rest →
    (bs.length < 2 ∨ ∃ op len p, bs = op :: len :: p ∧ p.length < len.toNat) →
    ∃ t, step s = .next t ∧ t.key.ksize = .noKey ∧ t.digest.phase = .idle ∧ t.output = [] ∧ t.input = rest

/-- After reset the block has no key and no digest in progress, the response stream is empty and no command is in hand (R161).
Of the other stores nothing is said: the spec leaves them unspecified. -/
def Obligations.ResetStateHasNoKeyAndNoDigest : Prop :=
  State.reset.key.ksize = .noKey ∧ keyBytes State.reset.key.ksize = 0 ∧ State.reset.digest.phase = .idle ∧
  State.reset.output = [] ∧ State.reset.input = []

/-- No byte sequence can hang or fault the block: every step from every state answers a next state (R57, R175). -/
def Obligations.EveryStepAnswersANextState : Prop := ∀ s : State, ∃ t, step s = .next t

/-! ### GF(2^8) -/

/-- GF_MULTIPLY (R74): two payload bytes are answered with their product and nothing else changes; any other length is
`IllegalCommand`. -/
def Obligations.GfMultiplyAnswersTheProduct : Prop :=
  ∀ s : State,
    (∀ a b : Byte, encode (.gfMultiply [a, b]) = [0x01, 0x02, a, b] ∧
      exec (.gfMultiply [a, b]) s = .next { s with output := s.output ++ [0x00, 0x01, gmul a b] }) ∧
    ∀ p : List Byte, p.length ≠ 2 →
      exec (.gfMultiply p) s = .next { s with output := s.output ++ [0x05, 0x00] }

/-- `xtime` doubles a byte and, where bit 8 is dropped, adds 0x1B (R71). -/
def Obligations.XtimeDoublesAndReduces : Prop :=
  ∀ a : Byte, (xtime a).toNat = if a.toNat < 128 then 2 * a.toNat else (2 * a.toNat - 256) ^^^ 0x1B

/-- `gmul` is the carry-less polynomial product of two bytes reduced modulo x^8+x^4+x^3+x+1 (R70). -/
def Obligations.GmulIsThePolynomialProductModulo11B : Prop :=
  ∀ a b : Byte, gmul a b = remainder11B (carrylessProduct a b)

/-- The laws of `gmul` (R73), with the inverse of R75. -/
def Obligations.GmulIsTheProductOfAField : Prop :=
  (∀ x : Byte, gmul 0 x = 0 ∧ gmul 1 x = x ∧ gmul x 0 = 0 ∧ gmul x 1 = x) ∧
  (∀ a b : Byte, gmul a b = gmul b a) ∧
  (∀ a b c : Byte, gmul a (b ^^^ c) = gmul a b ^^^ gmul a c) ∧
  (∀ a b c : Byte, gmul (gmul a b) c = gmul a (gmul b c)) ∧
  (∀ a b : Byte, gmul a b = 0 → a = 0 ∨ b = 0) ∧
  (∀ a : Byte, gmul a 0x02 = xtime a ∧ gmul a 0x03 = xtime a ^^^ a) ∧
  (∀ a : Byte, a ≠ 0 → gmul a (ginv a) = 1 ∧ ∀ y, gmul a y = 1 → y = ginv a)

/-! ### The S-box -/

/-- SBOX_FWD and SBOX_INV (R85, R86): one payload byte is answered with its table entry and nothing else changes; any other
length is `IllegalCommand`. -/
def Obligations.SboxCommandsAnswerTheTableEntries : Prop :=
  ∀ s : State,
    (∀ x : Byte, encode (.sboxFwd [x]) = [0x02, 0x01, x] ∧
      exec (.sboxFwd [x]) s = .next { s with output := s.output ++ [0x00, 0x01, byteAt sboxTable x.toNat] }) ∧
    (∀ x : Byte, encode (.sboxInv [x]) = [0x03, 0x01, x] ∧
      exec (.sboxInv [x]) s = .next { s with output := s.output ++ [0x00, 0x01, byteAt isboxTable x.toNat] }) ∧
    ∀ p : List Byte, p.length ≠ 1 →
      exec (.sboxFwd p) s = .next { s with output := s.output ++ [0x05, 0x00] } ∧
      exec (.sboxInv p) s = .next { s with output := s.output ++ [0x05, 0x00] }

/-- Every entry of the table `SBOX` is the affine transform, bit by bit, of the inverse of its index (R80). -/
def Obligations.SboxTableFollowsItsConstruction : Prop :=
  ∀ x : Byte, ∀ i < 8,
    (sbox x).getLsbD i =
      ((ginv x).getLsbD i ^^ (ginv x).getLsbD ((i + 4) % 8) ^^ (ginv x).getLsbD ((i + 5) % 8) ^^
       (ginv x).getLsbD ((i + 6) % 8) ^^ (ginv x).getLsbD ((i + 7) % 8) ^^ (0x63#8).getLsbD i)

/-- The two tables have 256 entries, undo each other, `SBOX` is a bijection with no fixed and no opposite fixed point, and the
entries the rule names (R82, R83). -/
def Obligations.SboxTablesAreInversePermutations : Prop :=
  sboxTable.length = 256 ∧ isboxTable.length = 256 ∧ Function.Bijective sbox ∧
  (∀ x : Byte, isbox (sbox x) = x ∧ sbox (isbox x) = x ∧ sbox x ≠ x ∧ sbox x ≠ x ^^^ 0xFF) ∧
  sbox 0x00 = 0x63 ∧ sbox 0x01 = 0x7C ∧ sbox 0xFF = 0x16 ∧
  isbox 0x00 = 0x52 ∧ isbox 0x63 = 0x00 ∧ isbox 0xFF = 0x7D

/-- `SubWord` is `SBOX` on each byte in place, and `RotWord` moves the most significant byte to the least significant place
(R84, R91). -/
def Obligations.SubWordAndRotWordOnBytes : Prop :=
  ∀ b0 b1 b2 b3 : Byte,
    subWord (be32 b0 b1 b2 b3) = be32 (sbox b0) (sbox b1) (sbox b2) (sbox b3) ∧
    rotWord (be32 b0 b1 b2 b3) = be32 b1 b2 b3 b0

/-! ### The key schedule -/

/-- EXPAND_KEY (R95): a key of a legal size is expanded into `KS`, `KSIZE` becomes its size, the bytes of `KS` beyond the schedule
keep what they held, the response is the schedule, and nothing else changes; any other length is `InvalidKeySize` and the old key
stays. That the bytes beyond are kept is the model's choice of R95 over R15 and U3, which let them be any value (log entry 10). -/
def Obligations.ExpandKeyLoadsTheKeySlot : Prop :=
  ∀ (s : State) (p : List Byte),
    encode (.expandKey p) = 0x04 :: BitVec.ofNat 8 p.length :: p ∧
    (∀ k : KeySize, k ≠ .noKey → p.length = keyBytes k →
      ∃ ks : Vector Byte 240,
        ks.toList = keySchedule p ++ s.key.ks.toList.drop (16 * (p.length / 4 + 7)) ∧
        exec (.expandKey p) s = .next { s with
          key := { ksize := k, ks := ks }
          output := s.output ++ 0x00 :: BitVec.ofNat 8 (16 * (p.length / 4 + 7)) :: keySchedule p }) ∧
    (p.length ≠ 16 → p.length ≠ 24 → p.length ≠ 32 →
      exec (.expandKey p) s = .next { s with output := s.output ++ [0x01, 0x00] })

/-- The words of the schedule: their number, the key as the first `Nk`, and the recurrence for each later one (R90, R93). -/
def Obligations.ScheduleWordsFollowTheRecurrence : Prop :=
  ∀ (key : List Byte) (nk : Nat), key.length = 4 * nk → nk = 4 ∨ nk = 6 ∨ nk = 8 →
    (expandKey key).length = 4 * (nk + 6 + 1) ∧
    (∀ i < nk, wordAt (expandKey key) i =
      be32 (byteAt key (4 * i)) (byteAt key (4 * i + 1)) (byteAt key (4 * i + 2)) (byteAt key (4 * i + 3))) ∧
    ∀ i, nk ≤ i → i < 4 * (nk + 6 + 1) →
      wordAt (expandKey key) i = wordAt (expandKey key) (i - nk) ^^^
        (if i % nk = 0 then subWord (rotWord (wordAt (expandKey key) (i - 1))) ^^^ rcon (i / nk)
         else if 6 < nk ∧ i % nk = 4 then subWord (wordAt (expandKey key) (i - 1))
         else wordAt (expandKey key) (i - 1))

/-- The schedule as bytes is the words, each big-endian; its first bytes are the key; its length is `16·(size/4 + 7)` (R94, R90). -/
def Obligations.ScheduleBytesBeginWithTheKeyAndAreBigEndian : Prop :=
  ∀ (key : List Byte) (nk : Nat), key.length = 4 * nk → nk = 4 ∨ nk = 6 ∨ nk = 8 →
    (keySchedule key).length = 16 * (nk + 7) ∧
    (keySchedule key).take key.length = key ∧
    ∀ i < 4 * (nk + 7), ((keySchedule key).drop (4 * i)).take 4 = bytesBe32 (wordAt (expandKey key) i)

/-- `RCON[1..10]` are the powers of x in the most significant byte, and no other entry can change an expansion (R92). -/
def Obligations.RoundConstantsAndTheEntriesNeverRead : Prop :=
  (∀ j, 1 ≤ j → j ≤ 10 → bytesBe32 (rcon j) = [xtime^[j - 1] 0x01, 0x00, 0x00, 0x00]) ∧
  ∀ (rc : Nat → Word) (key : List Byte), key.length = 16 ∨ key.length = 24 ∨ key.length = 32 →
    (∀ j, 1 ≤ j → j ≤ 10 → rc j = rcon j) → expandKeyWith rc key = expandKey key

/-! ### The block cipher -/

/-- ENCRYPT_BLOCK (R111): with a key loaded, 16 payload bytes are answered with `Cipher` of them and no store changes; a wrong
length is `InvalidBlockLength` in every state, and without a key a right one is `InvalidKeySize`. -/
def Obligations.EncryptBlockAnswersTheCiphertext : Prop :=
  ∀ s : State,
    (∀ b : Vector Byte 16, encode (.encryptBlock b.toList) = 0x05 :: 0x10 :: b.toList ∧
      (s.key.ksize ≠ .noKey →
        exec (.encryptBlock b.toList) s = .next { s with output := s.output ++ 0x00 :: 0x10 ::
          (storeState (cipher s.key.ks (keyBytes s.key.ksize / 4 + 6) (loadState b))).toList })) ∧
    (∀ p : List Byte, p.length = 16 → s.key.ksize = .noKey →
      exec (.encryptBlock p) s = .next { s with output := s.output ++ [0x01, 0x00] }) ∧
    ∀ p : List Byte, p.length ≠ 16 →
      exec (.encryptBlock p) s = .next { s with output := s.output ++ [0x02, 0x00] }

/-- DECRYPT_BLOCK (R112), in the same form with `InvCipher`. -/
def Obligations.DecryptBlockAnswersThePlaintext : Prop :=
  ∀ s : State,
    (∀ b : Vector Byte 16, encode (.decryptBlock b.toList) = 0x06 :: 0x10 :: b.toList ∧
      (s.key.ksize ≠ .noKey →
        exec (.decryptBlock b.toList) s = .next { s with output := s.output ++ 0x00 :: 0x10 ::
          (storeState (invCipher s.key.ks (keyBytes s.key.ksize / 4 + 6) (loadState b))).toList })) ∧
    (∀ p : List Byte, p.length = 16 → s.key.ksize = .noKey →
      exec (.decryptBlock p) s = .next { s with output := s.output ++ [0x01, 0x00] }) ∧
    ∀ p : List Byte, p.length ≠ 16 →
      exec (.decryptBlock p) s = .next { s with output := s.output ++ [0x02, 0x00] }

/-- The transforms that move or replace bytes, on the linear bytes of a block: byte `4c + r` is row `r`, column `c` (R101 to R105,
R108). -/
def Obligations.ByteTransformsOnLinearBytes : Prop :=
  ∀ b : Vector Byte 16,
    storeState (loadState b) = b ∧
    (∀ r c : Fin 4, cell (loadState b) r c = b[4 * c.val + r.val]) ∧
    (∀ i : Fin 16, (storeState (subBytes (loadState b)))[i.val] = sbox b[i.val]) ∧
    (∀ i : Fin 16, (storeState (invSubBytes (loadState b)))[i.val] = isbox b[i.val]) ∧
    (∀ r c : Fin 4, (storeState (shiftRows (loadState b)))[4 * c.val + r.val] =
      b[4 * ((c.val + r.val) % 4) + r.val]) ∧
    (∀ r c : Fin 4, (storeState (invShiftRows (loadState b)))[4 * c.val + r.val] =
      b[4 * ((c.val + (4 - r.val)) % 4) + r.val]) ∧
    ∀ (ks : Vector Byte 240) (k : Fin 15) (i : Fin 16),
      (storeState (addRoundKey ks k.val (loadState b)))[i.val] = b[i.val] ^^^ ks[16 * k.val + i.val]

/-- MixColumns and InvMixColumns written out for one column (R106, R107). -/
def Obligations.MixColumnsWrittenOut : Prop :=
  ∀ (st : Matrix4) (c : Fin 4),
    let s0 := cell st 0 c; let s1 := cell st 1 c; let s2 := cell st 2 c; let s3 := cell st 3 c
    cell (mixColumns st) 0 c = gmul 0x02 s0 ^^^ gmul 0x03 s1 ^^^ s2 ^^^ s3 ∧
    cell (mixColumns st) 1 c = s0 ^^^ gmul 0x02 s1 ^^^ gmul 0x03 s2 ^^^ s3 ∧
    cell (mixColumns st) 2 c = s0 ^^^ s1 ^^^ gmul 0x02 s2 ^^^ gmul 0x03 s3 ∧
    cell (mixColumns st) 3 c = gmul 0x03 s0 ^^^ s1 ^^^ s2 ^^^ gmul 0x02 s3 ∧
    cell (invMixColumns st) 0 c = gmul 0x0E s0 ^^^ gmul 0x0B s1 ^^^ gmul 0x0D s2 ^^^ gmul 0x09 s3 ∧
    cell (invMixColumns st) 1 c = gmul 0x09 s0 ^^^ gmul 0x0E s1 ^^^ gmul 0x0B s2 ^^^ gmul 0x0D s3 ∧
    cell (invMixColumns st) 2 c = gmul 0x0D s0 ^^^ gmul 0x09 s1 ^^^ gmul 0x0E s2 ^^^ gmul 0x0B s3 ∧
    cell (invMixColumns st) 3 c = gmul 0x0B s0 ^^^ gmul 0x0D s1 ^^^ gmul 0x09 s2 ^^^ gmul 0x0E s3

/-- `Cipher` (R109): if `S 0` is the state after AddRoundKey(0), and each `S k` for k in 1..R−1 comes from the one before by SubBytes,
ShiftRows, MixColumns, AddRoundKey(k), the result is SubBytes, ShiftRows, AddRoundKey(R) of `S (R−1)`. -/
def Obligations.CipherFollowsItsRoundSequence : Prop :=
  ∀ (ks : Vector Byte 240) (R : Nat) (st : Matrix4) (S : Nat → Matrix4), 1 ≤ R →
    S 0 = addRoundKey ks 0 st →
    (∀ k, 1 ≤ k → k ≤ R - 1 → S k = addRoundKey ks k (mixColumns (shiftRows (subBytes (S (k - 1)))))) →
    cipher ks R st = addRoundKey ks R (shiftRows (subBytes (S (R - 1))))

/-- `InvCipher` (R110): if `S R` is the state after AddRoundKey(R), and each `S k` for k from R−1 down to 1 comes from `S (k+1)` by
InvShiftRows, InvSubBytes, AddRoundKey(k), InvMixColumns, the result is InvShiftRows, InvSubBytes, AddRoundKey(0) of `S 1`. -/
def Obligations.InvCipherFollowsItsRoundSequence : Prop :=
  ∀ (ks : Vector Byte 240) (R : Nat) (st : Matrix4) (S : Nat → Matrix4), 1 ≤ R →
    S R = addRoundKey ks R st →
    (∀ k, 1 ≤ k → k ≤ R - 1 → S k = invMixColumns (addRoundKey ks k (invSubBytes (invShiftRows (S (k + 1)))))) →
    invCipher ks R st = addRoundKey ks 0 (invSubBytes (invShiftRows (S 1)))

/-- Each step of `InvCipher` undoes a step of `Cipher`, in either order, and InvShiftRows and InvSubBytes commute (R114); hence so do
the two sequences, for every schedule store and number of rounds. -/
def Obligations.InverseTransformsUndoTheTransforms : Prop :=
  ∀ (st : Matrix4) (ks : Vector Byte 240) (k : Nat),
    invSubBytes (subBytes st) = st ∧ subBytes (invSubBytes st) = st ∧
    invShiftRows (shiftRows st) = st ∧ shiftRows (invShiftRows st) = st ∧
    invShiftRows (invSubBytes st) = invSubBytes (invShiftRows st) ∧
    invMixColumns (mixColumns st) = st ∧ mixColumns (invMixColumns st) = st ∧
    addRoundKey ks k (addRoundKey ks k st) = st ∧
    invCipher ks k (cipher ks k st) = st ∧ cipher ks k (invCipher ks k st) = st

/-- The round trip (R113): after EXPAND_KEY of any key of a legal size, ENCRYPT_BLOCK of any block `p` answers some `c` such that
DECRYPT_BLOCK of `c` answers `p`, and the same with the two commands swapped. -/
def Obligations.EncryptThenDecryptReturnsTheBlock : Prop :=
  ∀ (s : State) (key : List Byte), key.length = 16 ∨ key.length = 24 ∨ key.length = 32 →
    ∃ t, exec (.expandKey key) s = .next t ∧
      ∀ p : Vector Byte 16,
        (∃ c : Vector Byte 16, ∀ out : List Byte,
          exec (.encryptBlock p.toList) { t with output := out } =
            .next { t with output := out ++ 0x00 :: 0x10 :: c.toList } ∧
          exec (.decryptBlock c.toList) { t with output := out } =
            .next { t with output := out ++ 0x00 :: 0x10 :: p.toList }) ∧
        ∃ d : Vector Byte 16, ∀ out : List Byte,
          exec (.decryptBlock p.toList) { t with output := out } =
            .next { t with output := out ++ 0x00 :: 0x10 :: d.toList } ∧
          exec (.encryptBlock d.toList) { t with output := out } =
            .next { t with output := out ++ 0x00 :: 0x10 :: p.toList }

/-- No chaining (R116): the response to a cipher command depends on the key slot and the payload alone. -/
def Obligations.CipherResponseDependsOnKeySlotAndPayloadAlone : Prop :=
  ∀ (s s' : State) (p : List Byte), s.key = s'.key →
    (∃ r, exec (.encryptBlock p) s = .next { s with output := s.output ++ r } ∧
      exec (.encryptBlock p) s' = .next { s' with output := s'.output ++ r }) ∧
    ∃ r, exec (.decryptBlock p) s = .next { s with output := s.output ++ r } ∧
      exec (.decryptBlock p) s' = .next { s' with output := s'.output ++ r }

/-! ### SHA-256 -/

/-- The six functions, bit by bit (R120, R121). -/
def Obligations.ShaFunctionsBitByBit : Prop :=
  ∀ (x y z : Word), ∀ i < 32,
    (ch x y z).getLsbD i = (if x.getLsbD i then y.getLsbD i else z.getLsbD i) ∧
    (maj x y z).getLsbD i =
      ((x.getLsbD i && y.getLsbD i) || (x.getLsbD i && z.getLsbD i) || (y.getLsbD i && z.getLsbD i)) ∧
    (bigSigma0 x).getLsbD i = (x.getLsbD ((i + 2) % 32) ^^ x.getLsbD ((i + 13) % 32) ^^ x.getLsbD ((i + 22) % 32)) ∧
    (bigSigma1 x).getLsbD i = (x.getLsbD ((i + 6) % 32) ^^ x.getLsbD ((i + 11) % 32) ^^ x.getLsbD ((i + 25) % 32)) ∧
    (smallSigma0 x).getLsbD i =
      (x.getLsbD ((i + 7) % 32) ^^ x.getLsbD ((i + 18) % 32) ^^ (decide (i + 3 < 32) && x.getLsbD (i + 3))) ∧
    (smallSigma1 x).getLsbD i =
      (x.getLsbD ((i + 17) % 32) ^^ x.getLsbD ((i + 19) % 32) ^^ (decide (i + 10 < 32) && x.getLsbD (i + 10)))

/-- The message schedule of a 64-byte block: 16 big-endian words of the block, then the recurrence modulo 2^32 (R124). -/
def Obligations.MessageScheduleFollowsTheRecurrence : Prop :=
  ∀ block : List Byte, block.length = 64 →
    (messageSchedule block).length = 64 ∧
    (∀ i < 16, wordAt (messageSchedule block) i =
      be32 (byteAt block (4 * i)) (byteAt block (4 * i + 1)) (byteAt block (4 * i + 2)) (byteAt block (4 * i + 3))) ∧
    ∀ i, 16 ≤ i → i < 64 →
      wordAt (messageSchedule block) i =
        smallSigma1 (wordAt (messageSchedule block) (i - 2)) + wordAt (messageSchedule block) (i - 7) +
        smallSigma0 (wordAt (messageSchedule block) (i - 15)) + wordAt (messageSchedule block) (i - 16)

/-- The compression step: 64 rounds on the working variables with the constants `K[0..63]` (R122), each simultaneous on the old
values, then the feed-forward (R125, R126). `V i` are the variables before round `i`. -/
def Obligations.CompressionIsSixtyFourRoundsAndFeedForward : Prop :=
  shaK =
    [0x428A2F98, 0x71374491, 0xB5C0FBCF, 0xE9B5DBA5, 0x3956C25B, 0x59F111F1, 0x923F82A4, 0xAB1C5ED5] ++
    [0xD807AA98, 0x12835B01, 0x243185BE, 0x550C7DC3, 0x72BE5D74, 0x80DEB1FE, 0x9BDC06A7, 0xC19BF174] ++
    [0xE49B69C1, 0xEFBE4786, 0x0FC19DC6, 0x240CA1CC, 0x2DE92C6F, 0x4A7484AA, 0x5CB0A9DC, 0x76F988DA] ++
    [0x983E5152, 0xA831C66D, 0xB00327C8, 0xBF597FC7, 0xC6E00BF3, 0xD5A79147, 0x06CA6351, 0x14292967] ++
    [0x27B70A85, 0x2E1B2138, 0x4D2C6DFC, 0x53380D13, 0x650A7354, 0x766A0ABB, 0x81C2C92E, 0x92722C85] ++
    [0xA2BFE8A1, 0xA81A664B, 0xC24B8B70, 0xC76C51A3, 0xD192E819, 0xD6990624, 0xF40E3585, 0x106AA070] ++
    [0x19A4C116, 0x1E376C08, 0x2748774C, 0x34B0BCB5, 0x391C0CB3, 0x4ED8AA4A, 0x5B9CCA4F, 0x682E6FF3] ++
    [0x748F82EE, 0x78A5636F, 0x84C87814, 0x8CC70208, 0x90BEFFFA, 0xA4506CEB, 0xBEF9A3F7, 0xC67178F2] ∧
  ∀ (h : Vector Word 8) (block : List Byte) (V : Nat → WorkingVars),
    V 0 = { a := h[0], b := h[1], c := h[2], d := h[3], e := h[4], f := h[5], g := h[6], h := h[7] } →
    (∀ i < 64,
      let v := V i
      let t1 := v.h + bigSigma1 v.e + ch v.e v.f v.g + wordAt shaK i + wordAt (messageSchedule block) i
      let t2 := bigSigma0 v.a + maj v.a v.b v.c
      V (i + 1) = { a := t1 + t2, b := v.a, c := v.b, d := v.c, e := v.d + t1, f := v.e, g := v.f, h := v.g }) →
    compressBlock h block =
      #v[h[0] + (V 64).a, h[1] + (V 64).b, h[2] + (V 64).c, h[3] + (V 64).d,
         h[4] + (V 64).e, h[5] + (V 64).f, h[6] + (V 64).g, h[7] + (V 64).h]

/-- `AppendByte` (R128): the byte is stored at `IDX`, 8 bits are counted modulo 2^64, and when the byte fills the buffer the block
is compressed at once and `IDX` is 0. -/
def Obligations.AppendByteStoresCountsAndCompresses : Prop :=
  ∀ (d : DigestContext) (x : Byte), d.idx.val < 64 →
    (appendByte d x).buf.toList = d.buf.toList.set d.idx.val x ∧
    (appendByte d x).bitcnt = d.bitcnt + 8 ∧
    (appendByte d x).phase = d.phase ∧
    (d.idx.val < 63 → (appendByte d x).idx.val = d.idx.val + 1 ∧ (appendByte d x).h = d.h) ∧
    (d.idx.val = 63 → (appendByte d x).idx.val = 0 ∧
      (appendByte d x).h = compressBlock d.h (appendByte d x).buf.toList)

/-- SHA_START (R131, R123): in every phase, `H` becomes the initial words, `IDX` and `BITCNT` 0, `PHASE` Accumulating, and nothing
else changes, `BUF` neither; with a payload it is `IllegalCommand` and resets nothing. -/
def Obligations.ShaStartBeginsANewDigest : Prop :=
  ∀ s : State,
    encode (.shaStart []) = [0x07, 0x00] ∧
    exec (.shaStart []) s = .next { s with
      digest :=
        { phase := .accumulating
          h := #v[0x6A09E667, 0xBB67AE85, 0x3C6EF372, 0xA54FF53A, 0x510E527F, 0x9B05688C, 0x1F83D9AB, 0x5BE0CD19]
          buf := s.digest.buf
          idx := 0
          bitcnt := 0 }
      output := s.output ++ [0x00, 0x00] } ∧
    ∀ p : List Byte, p.length ≠ 0 →
      exec (.shaStart p) s = .next { s with output := s.output ++ [0x05, 0x00] }

/-- SHA_ADD (R132): in phase Accumulating the payload's bytes are appended in order and nothing outside the digest context changes;
`IDX` and `BITCNT` grow by the length, the first modulo 64; in the other phases it is `DigestMisuse`, whatever the length. -/
def Obligations.ShaAddAppendsThePayload : Prop :=
  ∀ (s : State) (p : List Byte),
    encode (.shaAdd p) = 0x08 :: BitVec.ofNat 8 p.length :: p ∧
    (s.digest.phase = .accumulating → s.digest.idx.val < 64 →
      exec (.shaAdd p) s = .next { s with
        digest := p.foldl appendByte s.digest, output := s.output ++ [0x00, 0x00] } ∧
      (p.foldl appendByte s.digest).phase = .accumulating ∧
      (p.foldl appendByte s.digest).idx.val = (s.digest.idx.val + p.length) % 64 ∧
      (p.foldl appendByte s.digest).bitcnt = s.digest.bitcnt + BitVec.ofNat 64 (8 * p.length)) ∧
    (s.digest.phase ≠ .accumulating →
      exec (.shaAdd p) s = .next { s with output := s.output ++ [0x03, 0x00] })

/-- SHA_FINISH (R133): with `m` = `IDX` message bytes in the buffer, one block is compressed when `m ≤ 55` and two when `m ≥ 56`; the
last 8 bytes are `BITCNT` big-endian; the response is the hash words big-endian (R129). A payload is `IllegalCommand` in every phase,
and without one the other phases are `DigestMisuse`. The values that `H`, `BUF`, `IDX` and `BITCNT` have afterwards are the model's
choice, those the rule computes, where U4 and D28 let them be any value (log entry 9). -/
def Obligations.ShaFinishPadsCompressesAndAnswers : Prop :=
  ∀ s : State,
    encode (.shaFinish []) = [0x09, 0x00] ∧
    (s.digest.phase = .accumulating → s.digest.idx.val < 64 →
      ∃ d : DigestContext,
        exec (.shaFinish []) s = .next { s with
          digest := d
          output := s.output ++ ([0x00, 0x20] : List Byte) ++
            (bytesBe32 d.h[0] ++ bytesBe32 d.h[1] ++ bytesBe32 d.h[2] ++ bytesBe32 d.h[3] ++
             bytesBe32 d.h[4] ++ bytesBe32 d.h[5] ++ bytesBe32 d.h[6] ++ bytesBe32 d.h[7]) } ∧
        d.phase = .finalized ∧ d.bitcnt = s.digest.bitcnt ∧ d.idx.val = s.digest.idx.val + 1 ∧
        (s.digest.idx.val ≤ 55 →
          d.buf.toList = s.digest.buf.toList.take s.digest.idx.val ++ [0x80] ++
            List.replicate (55 - s.digest.idx.val) 0x00 ++ bytesBe64 s.digest.bitcnt ∧
          d.h = compressBlock s.digest.h d.buf.toList) ∧
        (56 ≤ s.digest.idx.val →
          d.buf.toList = List.replicate 56 0x00 ++ bytesBe64 s.digest.bitcnt ∧
          d.h = compressBlock
            (compressBlock s.digest.h (s.digest.buf.toList.take s.digest.idx.val ++ [0x80] ++
              List.replicate (63 - s.digest.idx.val) 0x00))
            d.buf.toList)) ∧
    (s.digest.phase ≠ .accumulating →
      exec (.shaFinish []) s = .next { s with output := s.output ++ [0x03, 0x00] }) ∧
    ∀ p : List Byte, p.length ≠ 0 →
      exec (.shaFinish p) s = .next { s with output := s.output ++ [0x05, 0x00] }

/-- The phase machine, every cell of its table (R130); the other commands neither read nor change `PHASE`, nor any other store of
the digest context. -/
def Obligations.PhaseMachineTable : Prop :=
  ∀ s : State,
    (∃ t, exec (.shaStart []) s = .next t ∧ t.digest.phase = .accumulating ∧
      t.output = s.output ++ responsePacket .ok []) ∧
    (s.digest.phase = .accumulating → ∀ p, ∃ t, exec (.shaAdd p) s = .next t ∧ t.digest.phase = .accumulating ∧
      t.output = s.output ++ responsePacket .ok []) ∧
    (s.digest.phase = .accumulating → ∃ t r, exec (.shaFinish []) s = .next t ∧ t.digest.phase = .finalized ∧
      r.length = 32 ∧ t.output = s.output ++ responsePacket .ok r) ∧
    (s.digest.phase ≠ .accumulating → ∀ p,
      exec (.shaAdd p) s = .next { s with output := s.output ++ responsePacket .digestMisuse [] } ∧
      exec (.shaFinish []) s = .next { s with output := s.output ++ responsePacket .digestMisuse [] }) ∧
    ∀ i t, (∀ p, i ≠ .shaStart p ∧ i ≠ .shaAdd p ∧ i ≠ .shaFinish p) → exec i s = .next t →
      t.digest = s.digest ∧ ∀ d, exec i { s with digest := d } = .next { t with digest := d }

/-- Streaming equivalence (R135): two runs of SHA_ADD in phase Accumulating whose payloads concatenate to the same bytes leave the
same digest context, and every one of their commands is answered `OK`. -/
def Obligations.SplittingTheMessageChangesNothing : Prop :=
  ∀ (s : State) (xs ys : List (List Byte)), s.digest.phase = .accumulating → xs.flatten = ys.flatten →
    ∃ d : DigestContext,
      runCommands (xs.map .shaAdd) s = .next { s with
        digest := d, output := s.output ++ (List.replicate xs.length [0x00, 0x00]).flatten } ∧
      runCommands (ys.map .shaAdd) s = .next { s with
        digest := d, output := s.output ++ (List.replicate ys.length [0x00, 0x00]).flatten }

/-- The padded message of R136 is a whole number of 64-byte blocks and has no block to spare. -/
def Obligations.PaddedMessageIsTheLeastThatFits : Prop :=
  ∀ m : List Byte,
    64 ∣ (paddedMessage m).length ∧ m.length + 9 ≤ (paddedMessage m).length ∧
    (paddedMessage m).length < m.length + 9 + 64

/-- What the digest is (R136): from every state, SHA_START, any number of SHA_ADD, SHA_FINISH answers SHA-256 of the concatenated
payloads, and leaves the key slot as it was. From 2^61 bytes on the length field has wrapped, and by R136 the result, which is still
what the rules define and what `sha256` computes, is no longer the SHA-256 of the message. -/
def Obligations.DigestIsSha256OfTheMessage : Prop :=
  ∀ (s : State) (chunks : List (List Byte)),
    ∃ t, runCommands (.shaStart [] :: (chunks.map .shaAdd ++ [.shaFinish []])) s = .next t ∧
      t.digest.phase = .finalized ∧ t.key = s.key ∧ t.input = s.input ∧ t.resets = s.resets ∧
      t.output = s.output ++ [0x00, 0x00] ++ (List.replicate chunks.length [0x00, 0x00]).flatten ++
        0x00 :: 0x20 :: sha256 chunks.flatten

/-! ### The host's pseudo-instructions -/

/-- `SHA256 <bytes>` (R61): every command of its expansion can be sent, and the run's last response carries SHA-256 of the bytes. -/
def Obligations.Sha256PseudoInstructionAnswersTheDigest : Prop :=
  ∀ (s : State) (m : List Byte),
    (∀ i ∈ sha256Commands m, i.WellFormed) ∧ (messageChunks m).flatten = m ∧
    assemble (.sha256 m) = some ((sha256Commands m).flatMap encode) ∧
    ∃ t before, runCommands (sha256Commands m) s = .next t ∧
      t.output = s.output ++ before ++ 0x00 :: 0x20 :: sha256 m

/-- `ENCRYPT_PADDED` (R62): the packet of ENCRYPT_BLOCK with the bytes and `16 − n` zeros, for 1 to 15 bytes and no others. -/
def Obligations.EncryptPaddedSendsTheZeroPaddedBlock : Prop :=
  ∀ p : List Byte,
    (1 ≤ p.length → p.length ≤ 15 →
      assemble (.encryptPadded p) = some (0x05 :: 0x10 :: (p ++ List.replicate (16 - p.length) 0x00))) ∧
    (p.length = 0 ∨ 16 ≤ p.length → assemble (.encryptPadded p) = none)

/-! ### Rules of the whole machine -/

/-- Every command answers one response: its status is that of the table of R141 in the order of R144, `RLEN` is fixed by the command
when it is `OK` and 0 when it is not (R51). -/
def Obligations.EveryCommandAnswersItsStatusAndLength : Prop :=
  ∀ (i : Instr) (s : State), ∃ t r,
    exec i s = .next t ∧ t.output = s.output ++ responsePacket (expectedStatus s i) r ∧
    (expectedStatus s i = .ok → r.length = okResultLength i) ∧ (expectedStatus s i ≠ .ok → r = [])

/-- A command that ends with a status other than `OK` changes no store: the response is the status byte and `RLEN` 0, and all its
packet has left the command stream (R143). -/
def Obligations.FailedCommandsChangeNoStore : Prop :=
  ∀ (i : Instr) (s : State), expectedStatus s i ≠ .ok →
    exec i s = .next { s with output := s.output ++ [statusCode (expectedStatus s i), 0x00] } ∧
    ∀ rest : List HostEvent, i.WellFormed → s.input = (encode i).map .byte ++ rest →
      (∀ es, rest ≠ .reset .duringCommand :: es) →
      step s = .next { s with input := rest, output := s.output ++ [statusCode (expectedStatus s i), 0x00] }

/-- What a step adds to the response stream is nothing, or one response whose status is not the reserved `AllocationFailure` (R155)
and whose result is at most 240 bytes (R51); a reset empties it. -/
def Obligations.NoStepAnswersAllocationFailure : Prop :=
  ∀ s t : State, step s = .next t →
    t.output = s.output ∨ t.output = [] ∨
    ∃ st r, st ≠ Status.allocationFailure ∧ r.length ≤ 240 ∧ t.output = s.output ++ responsePacket st r

/-- Which stores each command may write (R38, R10): the three one-byte commands and the cipher commands none, EXPAND_KEY the key
slot, the SHA commands the digest context. -/
def Obligations.CommandsWriteOnlyTheirStores : Prop :=
  ∀ (s t : State) (p : List Byte),
    (exec (.gfMultiply p) s = .next t ∨ exec (.sboxFwd p) s = .next t ∨ exec (.sboxInv p) s = .next t ∨
      exec (.encryptBlock p) s = .next t ∨ exec (.decryptBlock p) s = .next t →
      t = { s with output := t.output }) ∧
    (exec (.expandKey p) s = .next t → t = { s with key := t.key, output := t.output }) ∧
    (exec (.shaStart p) s = .next t ∨ exec (.shaAdd p) s = .next t ∨ exec (.shaFinish p) s = .next t →
      t = { s with digest := t.digest, output := t.output })

/-- The schedule is immutable once computed (R16): a step that changes the key slot performs an EXPAND_KEY of a legal key, or the
reset event. -/
def Obligations.KeySlotChangesOnlyByExpandKeyOrReset : Prop :=
  ∀ s t : State, step s = .next t → t.key ≠ s.key →
    (∃ p rest, (p.length = 16 ∨ p.length = 24 ∨ p.length = 32) ∧
      s.input = (encode (.expandKey p)).map .byte ++ rest ∧ t.input = rest) ∨
    ∃ (bs : List Byte) (time : ResetTime) (rest : List HostEvent),
      s.input = bs.map .byte ++ .reset time :: rest ∧ t.input = rest ∧ t.key.ksize = .noKey

/-- A step that changes `PHASE` performs SHA_START, SHA_FINISH or the reset event (R10, R130). -/
def Obligations.PhaseChangesOnlyByStartFinishOrReset : Prop :=
  ∀ s t : State, step s = .next t → t.digest.phase ≠ s.digest.phase →
    (∃ rest : List HostEvent, s.input = (encode (.shaStart [])).map .byte ++ rest ∧ t.digest.phase = .accumulating) ∨
    (∃ rest : List HostEvent, s.input = (encode (.shaFinish [])).map .byte ++ rest ∧
      s.digest.phase = .accumulating ∧ t.digest.phase = .finalized) ∨
    ∃ (bs : List Byte) (time : ResetTime) (rest : List HostEvent),
      s.input = bs.map .byte ++ .reset time :: rest ∧ t.input = rest ∧ t.digest.phase = .idle

/-- The digest engine is independent of the cipher components (R3): a cipher command and a digest command, in either order, leave
the same stores, and each is answered as it is on its own. -/
def Obligations.CipherAndDigestCommandsCommute : Prop :=
  ∀ (s : State) (i j : Instr) (p q : List Byte),
    i = .expandKey p ∨ i = .encryptBlock p ∨ i = .decryptBlock p →
    j = .shaStart q ∨ j = .shaAdd q ∨ j = .shaFinish q →
    ∃ si sj t u ri rj,
      exec i s = .next si ∧ si.output = s.output ++ ri ∧ exec j s = .next sj ∧ sj.output = s.output ++ rj ∧
      runCommands [i, j] s = .next t ∧ runCommands [j, i] s = .next u ∧
      stores t = (si.key, sj.digest) ∧ stores u = (si.key, sj.digest) ∧
      t.output = s.output ++ ri ++ rj ∧ u.output = s.output ++ rj ++ ri

/-- A command stream of whole packets, legal or not, yields one response for each, in order, and is used up (R47, R175): response
`k` is what a step answers at the state after `k` packets, where packet `k` is the next on the command stream. -/
def Obligations.StreamOfPacketsYieldsAsManyResponses : Prop :=
  ∀ (ps : List (Byte × List Byte)) (s : State), (∀ q ∈ ps, q.2.length ≤ 255) →
    s.input = (ps.flatMap fun q => packet q.1 q.2).map .byte →
    ∃ (t : State) (rs : List (Status × List Byte)),
      core.run ps.length s = .next t ∧ t.input = [] ∧ rs.length = ps.length ∧
      (t.output = s.output ++ rs.flatMap fun r => responsePacket r.1 r.2) ∧
      ∀ k r, rs[k]? = some r → r.2.length ≤ 240 ∧
        ∃ u v : State,
          core.run k s = .next u ∧ u.input = ((ps.drop k).flatMap fun q => packet q.1 q.2).map .byte ∧
          step u = .next v ∧ v.input = ((ps.drop (k + 1)).flatMap fun q => packet q.1 q.2).map .byte ∧
          v.output = u.output ++ responsePacket r.1 r.2

/-! ### The invariant -/

/-- The invariant holds right after reset. -/
def Obligations.InvariantHoldsAtReset : Prop := State.reset.Inv

/-- Every step keeps the invariant: while a key is loaded `KS` begins with the expansion of its own first bytes (R15), and in phase
Accumulating the digest context is that of the message given since SHA_START (R19 to R22). -/
def Obligations.EveryStepKeepsTheInvariant : Prop :=
  ∀ s t : State, s.Inv → step s = .next t → t.Inv

/-- Under the invariant, `IDX` is in 0..63 between commands in phase Accumulating and `BITCNT` is a whole number of bytes (R21,
D34). -/
def Obligations.InvariantBoundsIdxAndBitcnt : Prop :=
  ∀ s : State, s.Inv → s.digest.phase = .accumulating →
    s.digest.idx.val < 64 ∧ s.digest.bitcnt.toNat % 512 = 8 * s.digest.idx.val

/-! ### What cannot be observed -/

/-- No command can observe the bytes of `KS` beyond the schedule, the stale bytes of `BUF`, or a digest context outside phase
Accumulating (R15, R20, R27): states that differ only there stay so, with the same responses, through every step. -/
def Obligations.UnspecifiedContentIsNeverObserved : Prop :=
  ∀ s s' t t' : State, s.Agree s' → step s = .next t → step s' = .next t' → t.Agree t'

/-- After the reset event no command can tell what the block held before it (R161), whatever the free values are. -/
def Obligations.ResetLeavesNothingToObserve : Prop :=
  ∀ (s s' t t' : State) (time time' : ResetTime) (rest : List HostEvent),
    s.input = .reset time :: rest → s'.input = .reset time' :: rest →
    step s = .next t → step s' = .next t' → t.Agree t'

/-- A reset while a command is being received or performed abandons it (R162): the packet, partial or whole, legal or not, is gone
from the command stream, no response is sent for it, there is no key and no digest in progress (R161), and what the other stores
hold is what a reset leaves of everything the block held and the bytes of the packet: the free values of log entry 1. How the stream
says when a reset arrives is the model's choice (log entry 5). -/
def Obligations.ResetAbandonsTheCommandInHand : Prop :=
  ∀ (s : State) (bs : List Byte) (time : ResetTime) (rest : List HostEvent), s.input = bs.map .byte ++ .reset time :: rest →
    (bs.length < 2 ∨ ∃ op len p, bs = op :: len :: p ∧ (p.length < len.toNat ∨ p.length = len.toNat ∧ time = .duringCommand)) →
    step s = .next
      { key := KeySlot.afterReset (s.resets + 1) (residue s)
        digest := DigestContext.afterReset (s.resets + 1) (residue s)
        input := rest
        output := []
        resets := s.resets + 1 } ∧
    (KeySlot.afterReset (s.resets + 1) (residue s)).ksize = .noKey ∧
    (DigestContext.afterReset (s.resets + 1) (residue s)).phase = .idle
end

