-- ==== Sys2Proof/Laws/State.lean ====
section
/-! SUPPORT. One lemma per field per update of State, true by unfolding, and the fields of the state after reset. -/

namespace Sys2Proof.Machine

/-! ### `emit` -/

@[simp] theorem emit_key (st : Status) (r : List Byte) (s : State) : (emit st r s).key = s.key := rfl
@[simp] theorem emit_digest (st : Status) (r : List Byte) (s : State) : (emit st r s).digest = s.digest := rfl
@[simp] theorem emit_input (st : Status) (r : List Byte) (s : State) : (emit st r s).input = s.input := rfl
@[simp] theorem emit_output (st : Status) (r : List Byte) (s : State) :
    (emit st r s).output = s.output ++ responsePacket st r := rfl
@[simp] theorem emit_resets (st : Status) (r : List Byte) (s : State) : (emit st r s).resets = s.resets := rfl

/-! ### `consume` and `offer` -/

@[simp] theorem consume_key (n : Nat) (s : State) : (consume n s).key = s.key := rfl
@[simp] theorem consume_digest (n : Nat) (s : State) : (consume n s).digest = s.digest := rfl
@[simp] theorem consume_input (n : Nat) (s : State) : (consume n s).input = s.input.drop n := rfl
@[simp] theorem consume_output (n : Nat) (s : State) : (consume n s).output = s.output := rfl
@[simp] theorem consume_resets (n : Nat) (s : State) : (consume n s).resets = s.resets := rfl
@[simp] theorem offer_key (bs : List Byte) (s : State) : (offer bs s).key = s.key := rfl
@[simp] theorem offer_digest (bs : List Byte) (s : State) : (offer bs s).digest = s.digest := rfl
@[simp] theorem offer_input (bs : List Byte) (s : State) : (offer bs s).input = bs.map .byte ++ s.input := rfl
@[simp] theorem offer_output (bs : List Byte) (s : State) : (offer bs s).output = s.output := rfl
@[simp] theorem offer_resets (bs : List Byte) (s : State) : (offer bs s).resets = s.resets := rfl

/-! ### `settle` -/

@[simp] theorem settle_key (s : State) : (settle s).key = s.key := by unfold settle; split <;> rfl
@[simp] theorem settle_digest (s : State) : (settle s).digest = s.digest := by unfold settle; split <;> rfl
@[simp] theorem settle_output (s : State) : (settle s).output = s.output := by unfold settle; split <;> rfl
@[simp] theorem settle_resets (s : State) : (settle s).resets = s.resets := by unfold settle; split <;> rfl

/-! ### Reset -/

@[simp] theorem keySlot_afterReset_ksize (n : Nat) (was : List Byte) : (KeySlot.afterReset n was).ksize = .noKey := rfl
@[simp] theorem digest_afterReset_phase (n : Nat) (was : List Byte) : (DigestContext.afterReset n was).phase = .idle := rfl
@[simp] theorem resetEvent_key (rest : List HostEvent) (s : State) :
    (resetEvent rest s).key = KeySlot.afterReset (s.resets + 1) (residue s) := rfl
@[simp] theorem resetEvent_digest (rest : List HostEvent) (s : State) :
    (resetEvent rest s).digest = DigestContext.afterReset (s.resets + 1) (residue s) := rfl
@[simp] theorem resetEvent_input (rest : List HostEvent) (s : State) : (resetEvent rest s).input = rest := rfl
@[simp] theorem resetEvent_output (rest : List HostEvent) (s : State) : (resetEvent rest s).output = [] := rfl
@[simp] theorem resetEvent_resets (rest : List HostEvent) (s : State) : (resetEvent rest s).resets = s.resets + 1 := rfl
@[simp] theorem reset_key : State.reset.key = KeySlot.afterReset 0 [] := rfl
@[simp] theorem reset_digest : State.reset.digest = DigestContext.afterReset 0 [] := rfl
@[simp] theorem reset_input : State.reset.input = [] := rfl
@[simp] theorem reset_output : State.reset.output = [] := rfl

end Sys2Proof.Machine
end

