-- ==== Sys2Proof/Laws/Ops.lean ====
section
/-! SUPPORT. One specification lemma for each shared operation: byte order, the two ways a command ends, the command stream,
waiting and reset. -/

namespace Sys2Proof.Machine

/-! ### Byte order -/

@[simp] theorem bytesBe32_length (w : Word) : (bytesBe32 w).length = 4 := rfl
@[simp] theorem bytesBe64_length (v : BitVec 64) : (bytesBe64 v).length = 8 := rfl

/-- `bytes_be32` is the inverse of `be32` (R7). -/
theorem bytesBe32_be32 (b0 b1 b2 b3 : Byte) : bytesBe32 (be32 b0 b1 b2 b3) = [b0, b1, b2, b3] := by
  simp only [bytesBe32, be32, List.cons.injEq, and_true]
  refine ⟨?_, ?_, ?_, ?_⟩ <;>
  · ext i hi
    simp only [BitVec.getElem_extractLsb', BitVec.getLsbD_append]
    interval_cases i <;> simp

/-- `be32` is the inverse of `bytes_be32` (R7). -/
theorem be32_bytesBe32 (w : Word) :
    be32 (w.extractLsb' 24 8) (w.extractLsb' 16 8) (w.extractLsb' 8 8) (w.extractLsb' 0 8) = w := by
  apply BitVec.eq_of_getLsbD_eq
  intro i hi
  simp only [be32, BitVec.getLsbD_append, BitVec.getLsbD_extractLsb']
  interval_cases i <;> simp

theorem wordsToBytes_nil : wordsToBytes [] = [] := rfl

theorem wordsToBytes_cons (w : Word) (ws : List Word) : wordsToBytes (w :: ws) = bytesBe32 w ++ wordsToBytes ws := rfl

theorem wordsToBytes_append (ws ws' : List Word) :
    wordsToBytes (ws ++ ws') = wordsToBytes ws ++ wordsToBytes ws' := by
  simp [wordsToBytes]

@[simp] theorem wordsToBytes_length (ws : List Word) : (wordsToBytes ws).length = 4 * ws.length := by
  induction ws with
  | nil => rfl
  | cons w ws ih => rw [wordsToBytes_cons, List.length_append, ih, bytesBe32_length, List.length_cons]; omega

/-- A store after `overlay` holds the new bytes and, beyond them, what it held. -/
theorem overlay_toList {n : Nat} (v : Vector Byte n) (bs : List Byte) (h : bs.length ≤ n) :
    (overlay v bs).toList = bs ++ v.toList.drop bs.length := by
  apply List.ext_getElem
  · simp; omega
  · intro j h1 h2
    rw [Vector.length_toList] at h1
    by_cases hj : j < bs.length
    · simp [overlay, byteAt, hj, List.getElem_append_left]
    · rw [List.getElem_append_right (by omega), List.getElem_drop]
      simp [overlay, hj, show bs.length + (j - bs.length) = j by omega]

/-! ### How a command ends -/

@[simp] theorem statusCode_injective (a b : Status) : statusCode a = statusCode b ↔ a = b := by
  cases a <;> cases b <;> decide

theorem responsePacket_length (st : Status) (r : List Byte) : (responsePacket st r).length = 2 + r.length := by
  simp [responsePacket]; omega

/-- All that a command that fails does (R143). -/
theorem raise_spec (st : Status) (s : State) :
    raise st s = .next { s with output := s.output ++ [statusCode st, 0x00] } := rfl

/-- All that `respond OK(P)` does (R8). -/
theorem respondOk_spec (r : List Byte) (s : State) :
    respondOk r s = .next { s with output := s.output ++ 0x00 :: BitVec.ofNat 8 r.length :: r } := rfl

/-! ### The command stream -/

@[simp] theorem leadingBytes_byte (b : Byte) (es : List HostEvent) :
    leadingBytes (.byte b :: es) = b :: leadingBytes es := rfl
@[simp] theorem leadingBytes_reset (r : ResetTime) (es : List HostEvent) : leadingBytes (.reset r :: es) = [] := rfl
@[simp] theorem leadingBytes_nil : leadingBytes [] = [] := rfl

theorem leadingBytes_map_append (bs : List Byte) (es : List HostEvent) :
    leadingBytes (bs.map .byte ++ es) = bs ++ leadingBytes es := by
  induction bs with
  | nil => rfl
  | cons b bs ih => simp [ih]

@[simp] theorem leadingBytes_map (bs : List Byte) : leadingBytes (bs.map .byte) = bs := by
  have h := leadingBytes_map_append bs []
  simpa using h

/-- The host's events are the leading bytes, then nothing or a reset. -/
theorem input_eq_leadingBytes (es : List HostEvent) :
    ∃ tail, es = (leadingBytes es).map .byte ++ tail ∧ (tail = [] ∨ ∃ r rest, tail = .reset r :: rest) := by
  induction es with
  | nil => exact ⟨[], rfl, .inl rfl⟩
  | cons e es ih =>
    cases e with
    | byte b =>
      obtain ⟨tail, h, ht⟩ := ih
      exact ⟨tail, by rw [leadingBytes_byte, List.map_cons, List.cons_append, ← h], ht⟩
    | reset r => exact ⟨.reset r :: es, rfl, .inr ⟨r, es, rfl⟩⟩

/-- Taking a packet that was offered leaves what was there before it. -/
theorem consume_offer (bs : List Byte) (s : State) : consume bs.length (offer bs s) = s := by
  simp [consume, offer]

theorem fetchBytes_offer (bs : List Byte) (s : State) : fetchBytes (offer bs s) = bs ++ fetchBytes s :=
  leadingBytes_map_append bs s.input

/-- All that waiting can do: keep the state, or perform the host's reset event. -/
theorem awaitHost_cases (s : State) :
    (s.input = (fetchBytes s).map .byte ∧ awaitHost s = .next s) ∨
    ∃ r rest, s.input = (fetchBytes s).map .byte ++ .reset r :: rest ∧ awaitHost s = .next (resetEvent rest s) := by
  obtain ⟨tail, h, ht⟩ := input_eq_leadingBytes s.input
  have hd : s.input.drop (fetchBytes s).length = tail := by
    have hl : (fetchBytes s).length = ((leadingBytes s.input).map HostEvent.byte).length := by simp [fetchBytes]
    rw [hl]
    generalize leadingBytes s.input = bs at h
    rw [h]
    exact List.drop_left
  obtain rfl | ⟨r, rest, rfl⟩ := ht
  · exact .inl ⟨by simpa [fetchBytes] using h, by simp [awaitHost, hd]⟩
  · exact .inr ⟨r, rest, h, by simp [awaitHost, hd]⟩

/-- All that performing a packet can do: its meaning once it is taken, or a reset that abandons it. -/
theorem perform_cases (n : Nat) (meaning : State → Result) (s : State) :
    ((∀ rest, s.input.drop n ≠ .reset .duringCommand :: rest) ∧ perform n meaning s = meaning (consume n s)) ∨
    ∃ rest, s.input.drop n = .reset .duringCommand :: rest ∧ perform n meaning s = .next (resetEvent rest s) := by
  unfold perform
  split
  next rest h => exact .inr ⟨rest, h, rfl⟩
  next h => exact .inl ⟨fun rest hr => h rest hr, rfl⟩

/-- A reset at the very front is counted as one between commands; every other state is kept. -/
theorem settle_cases (s : State) :
    ((∀ r rest, s.input ≠ .reset r :: rest) ∧ settle s = s) ∨
    ∃ r rest, s.input = .reset r :: rest ∧ settle s = { s with input := .reset .betweenCommands :: rest } := by
  unfold settle
  split
  next r rest h => exact .inr ⟨r, rest, h, rfl⟩
  next h => exact .inl ⟨fun r rest hr => h r rest hr, rfl⟩

end Sys2Proof.Machine
end

