-- ==== Sys2Proof/Laws/Cipher.lean ====
section
/-! SUPPORT. The state matrix and the round transforms, cell by cell; the sizes of the key schedule. -/

namespace Sys2Proof.Machine

/-! ### The state matrix -/

@[simp] theorem cell_matrixOf (f : Fin 4 → Fin 4 → Byte) (r c : Fin 4) : cell (matrixOf f) r c = f r c := by
  simp [cell, matrixOf]

/-- Two matrices with the same cells are the same. -/
theorem matrix_ext {a b : Matrix4} (h : ∀ r c, cell a r c = cell b r c) : a = b := by
  apply Vector.ext
  intro r hr
  apply Vector.ext
  intro c hc
  exact h ⟨r, hr⟩ ⟨c, hc⟩

theorem cell_loadState (b : Vector Byte 16) (r c : Fin 4) : cell (loadState b) r c = b[4 * c.val + r.val] := by
  simp [loadState]

/-- `StoreState()` after `LoadState(B)` returns `B` (R101). -/
theorem storeState_loadState (b : Vector Byte 16) : storeState (loadState b) = b := by
  apply Vector.ext
  intro i hi
  have h : 4 * (i / 4) + i % 4 = i := by omega
  simp [storeState, cell_loadState, h]

/-- Loading what was stored gives the matrix back. -/
theorem loadState_storeState (st : Matrix4) : loadState (storeState st) = st := by
  apply matrix_ext
  intro r c
  simp only [cell_loadState, storeState, Vector.getElem_ofFn]
  have hr : (⟨(4 * c.val + r.val) % 4, by omega⟩ : Fin 4) = r :=
    Fin.ext (show (4 * c.val + r.val) % 4 = r.val by omega)
  have hc : (⟨(4 * c.val + r.val) / 4, by omega⟩ : Fin 4) = c :=
    Fin.ext (show (4 * c.val + r.val) / 4 = c.val by omega)
  rw [hr, hc]

@[simp] theorem cell_subBytes (st : Matrix4) (r c : Fin 4) : cell (subBytes st) r c = sbox (cell st r c) := by
  simp [subBytes]

@[simp] theorem cell_invSubBytes (st : Matrix4) (r c : Fin 4) : cell (invSubBytes st) r c = isbox (cell st r c) := by
  simp [invSubBytes]

@[simp] theorem cell_shiftRows (st : Matrix4) (r c : Fin 4) : cell (shiftRows st) r c = cell st r (c + r) := by
  simp [shiftRows]

@[simp] theorem cell_invShiftRows (st : Matrix4) (r c : Fin 4) : cell (invShiftRows st) r c = cell st r (c - r) := by
  simp [invShiftRows]

theorem cell_mulColumns (m st : Matrix4) (r c : Fin 4) :
    cell (mulColumns m st) r c =
      gmul (cell m r 0) (cell st 0 c) ^^^ gmul (cell m r 1) (cell st 1 c) ^^^
      gmul (cell m r 2) (cell st 2 c) ^^^ gmul (cell m r 3) (cell st 3 c) := by
  simp [mulColumns]

@[simp] theorem cell_addRoundKey (ks : Vector Byte 240) (k : Nat) (st : Matrix4) (r c : Fin 4) :
    cell (addRoundKey ks k st) r c = cell st r c ^^^ byteAt ks.toList (16 * k + 4 * c.val + r.val) := by
  simp [addRoundKey]

/-! ### The key schedule -/

theorem expandNext_length (rc : Nat → Word) (nk : Nat) (w : List Word) :
    (expandNext rc nk w).length = w.length + 1 := by
  simp [expandNext]

@[simp] theorem expandLoop_length (rc : Nat → Word) (nk n : Nat) (w : List Word) :
    (expandLoop rc nk n w).length = w.length + n := by
  induction n generalizing w with
  | zero => rfl
  | succ n ih => rw [expandLoop, ih, expandNext_length]; omega

/-- The words there are stay as they are when more are computed. -/
theorem expandLoop_prefix (rc : Nat → Word) (nk n : Nat) (w : List Word) :
    w <+: expandLoop rc nk n w := by
  induction n generalizing w with
  | zero => exact List.prefix_rfl
  | succ n ih => exact (List.prefix_append _ _).trans (ih (expandNext rc nk w))

@[simp] theorem keyWords_length (key : List Byte) : (keyWords key).length = key.length / 4 := by
  simp [keyWords]

/-- A key of the size `k` has one of the three legal lengths. -/
theorem keyBytes_cases {k : KeySize} (h : k ≠ .noKey) : keyBytes k = 16 ∨ keyBytes k = 24 ∨ keyBytes k = 32 := by
  cases k <;> simp_all [keyBytes]

/-- The operand of EXPAND_KEY: exactly the keys of a legal size (R36). -/
theorem keyOperand_eq_some {p : List Byte} {k : KeySize} :
    keyOperand p = some k ↔ k ≠ .noKey ∧ p.length = keyBytes k := by
  unfold keyOperand
  split <;> cases k <;> simp_all [keyBytes]

theorem keyOperand_eq_none {p : List Byte} :
    keyOperand p = none ↔ p.length ≠ 16 ∧ p.length ≠ 24 ∧ p.length ≠ 32 := by
  unfold keyOperand
  split <;> simp_all

/-- The schedule of a key of size `k` fits the store, and its length depends on the size alone (R90, R96). -/
theorem scheduleBytes_le (k : KeySize) : scheduleBytes k ≤ 240 := by
  cases k <;> decide

/-! ### The cipher operand -/

theorem blockOperand_eq_none {p : List Byte} : blockOperand p = none ↔ p.length ≠ 16 := by
  simp [blockOperand]

/-- The operand of the cipher commands: exactly the blocks of 16 bytes (R36). -/
theorem blockOperand_eq_some {p : List Byte} {b : Vector Byte 16} : blockOperand p = some b ↔ p = b.toList := by
  unfold blockOperand
  constructor
  · intro h
    split at h
    · cases h; rfl
    · cases h
  · rintro rfl
    simp [Vector.toList]

end Sys2Proof.Machine
end

