-- ==== Sys2Proof/Laws/Codec.lean ====
section
/-! SUPPORT. The opcode map and its inverse; the decoder on a packet. -/

namespace Sys2Proof

/-- The opcode map gives a command's own constructor back. -/
theorem instrOf_opcode (i : Instr) : instrOf i.opcode i.payload = some i := by
  cases i <;> rfl

/-- What the opcode map answers has the opcode and the payload it was asked for. -/
theorem instrOf_some {op : Byte} {p : List Byte} {i : Instr} (h : instrOf op p = some i) :
    i.opcode = op ∧ i.payload = p := by
  have hop : op = BitVec.ofNat 8 op.toNat := by simp
  unfold instrOf at h
  split at h <;> first | (cases h; rw [hop]; simp_all [Instr.opcode, Instr.payload]) | cases h

/-- The opcodes that select no command (R55). -/
theorem instrOf_eq_none {op : Byte} {p : List Byte} :
    instrOf op p = none ↔ op.toNat = 0 ∨ 10 ≤ op.toNat := by
  have := op.isLt
  unfold instrOf
  split <;> (simp_all; try omega)

/-- The decoder on a whole packet with any bytes after it: the opcode map, and `2 + LEN` bytes taken (R57). -/
theorem decode_packet (op : Byte) (p rest : List Byte) (h : p.length ≤ 255) :
    decode (packet op p ++ rest) =
      match instrOf op p with
      | some i => .command i (2 + p.length)
      | none => .illegalOpcode op (2 + p.length) := by
  have hl : (BitVec.ofNat 8 p.length).toNat = p.length := by
    rw [BitVec.toNat_ofNat]; exact Nat.mod_eq_of_lt (by omega)
  have hs : ¬ p.length + rest.length < p.length := by omega
  have ht : (p ++ rest).take p.length = p := List.take_left
  cases hi : instrOf op p <;>
    simp only [packet, List.cons_append, decode, hl, List.length_append, if_neg hs, ht, hi]

end Sys2Proof
end

