-- ==== Sys2Proof/Laws/Digest.lean ====
section
/-! SUPPORT. What each operation on the digest context does to each of its stores. -/

namespace Sys2Proof.Machine

/-! ### `compress` writes `H` only (R127) -/

@[simp] theorem compress_phase (d : DigestContext) : (compress d).phase = d.phase := rfl
@[simp] theorem compress_h (d : DigestContext) : (compress d).h = compressBlock d.h d.buf.toList := rfl
@[simp] theorem compress_buf (d : DigestContext) : (compress d).buf = d.buf := rfl
@[simp] theorem compress_idx (d : DigestContext) : (compress d).idx = d.idx := rfl
@[simp] theorem compress_bitcnt (d : DigestContext) : (compress d).bitcnt = d.bitcnt := rfl

/-! ### `AppendByte` (R128) -/

@[simp] theorem appendByte_phase (d : DigestContext) (x : Byte) : (appendByte d x).phase = d.phase := by
  unfold appendByte; split <;> rfl

@[simp] theorem appendByte_bitcnt (d : DigestContext) (x : Byte) : (appendByte d x).bitcnt = d.bitcnt + 8 := by
  unfold appendByte; split <;> rfl

@[simp] theorem appendByte_buf (d : DigestContext) (x : Byte) :
    (appendByte d x).buf = d.buf.setIfInBounds d.idx.val x := by
  unfold appendByte; split <;> rfl

/-- The fill index after a byte: one more, and 0 when the buffer is full. -/
theorem appendByte_idx (d : DigestContext) (x : Byte) (h : d.idx.val < 64) :
    (appendByte d x).idx.val = (d.idx.val + 1) % 64 := by
  unfold appendByte
  split
  next hf => simp [hf]
  next hf =>
    have h65 : (d.idx.val + 1) % 65 = d.idx.val + 1 := Nat.mod_eq_of_lt (by omega)
    have h64 : (d.idx.val + 1) % 64 = d.idx.val + 1 := Nat.mod_eq_of_lt (by omega)
    simp only [Fin.val_ofNat, h65, h64]

/-- The hash words change only when the buffer is full. -/
theorem appendByte_h (d : DigestContext) (x : Byte) :
    (appendByte d x).h =
      if d.idx.val + 1 = 64 then compressBlock d.h (d.buf.setIfInBounds d.idx.val x).toList else d.h := by
  unfold appendByte; split <;> rfl

@[simp] theorem appendBytes_nil (d : DigestContext) : appendBytes d [] = d := rfl

theorem appendBytes_cons (d : DigestContext) (x : Byte) (xs : List Byte) :
    appendBytes d (x :: xs) = appendBytes (appendByte d x) xs := rfl

@[simp] theorem appendBytes_phase (d : DigestContext) (xs : List Byte) : (appendBytes d xs).phase = d.phase := by
  induction xs generalizing d with
  | nil => rfl
  | cons x xs ih => rw [appendBytes_cons, ih, appendByte_phase]

/-- The fill index stays below 64 between bytes (R21). -/
theorem appendBytes_idx_lt (d : DigestContext) (xs : List Byte) (h : d.idx.val < 64) :
    (appendBytes d xs).idx.val < 64 := by
  induction xs generalizing d with
  | nil => exact h
  | cons x xs ih =>
    apply ih
    rw [appendByte_idx d x h]
    exact Nat.mod_lt _ (by decide)

/-! ### Start and finish -/

@[simp] theorem startDigest_phase (d : DigestContext) : (startDigest d).phase = .accumulating := rfl
@[simp] theorem startDigest_h (d : DigestContext) : (startDigest d).h = shaIv := rfl
@[simp] theorem startDigest_buf (d : DigestContext) : (startDigest d).buf = d.buf := rfl
@[simp] theorem startDigest_idx (d : DigestContext) : (startDigest d).idx = 0 := rfl
@[simp] theorem startDigest_bitcnt (d : DigestContext) : (startDigest d).bitcnt = 0 := rfl
@[simp] theorem finishDigest_phase (d : DigestContext) : (finishDigest d).phase = .finalized := by
  simp only [finishDigest]

@[simp] theorem padMessage_bitcnt (d : DigestContext) : (padMessage d).bitcnt = d.bitcnt := by
  simp only [padMessage]

@[simp] theorem padMessage_idx (d : DigestContext) : (padMessage d).idx = Fin.ofNat 65 (d.idx.val + 1) := by
  simp only [padMessage]

@[simp] theorem padMessage_h (d : DigestContext) : (padMessage d).h = d.h := by
  simp only [padMessage]

@[simp] theorem makeRoom_bitcnt (d : DigestContext) : (makeRoom d).bitcnt = d.bitcnt := by
  unfold makeRoom; split <;> rfl

@[simp] theorem makeRoom_idx (d : DigestContext) : (makeRoom d).idx = d.idx := by
  unfold makeRoom; split <;> rfl

/-- SHA_FINISH reads `BITCNT` and does not write it (R133). -/
@[simp] theorem finishDigest_bitcnt (d : DigestContext) : (finishDigest d).bitcnt = d.bitcnt := by
  simp only [finishDigest, compress_bitcnt, makeRoom_bitcnt, padMessage_bitcnt]

@[simp] theorem finishDigest_idx (d : DigestContext) : (finishDigest d).idx = Fin.ofNat 65 (d.idx.val + 1) := by
  simp only [finishDigest, compress_idx, makeRoom_idx, padMessage_idx]

@[simp] theorem digestBytes_length (h : Vector Word 8) : (digestBytes h).length = 32 := by
  simp [digestBytes]

end Sys2Proof.Machine
end

