-- ==== Sys2Proof/Laws/Exec.lean ====
section
/-! SUPPORT. For each command, everything its meaning can do: either it ends at a check, by `raise`, or it is performed. Later
proofs cite these and do not unfold the meanings. -/

namespace Sys2Proof.Machine

theorem execGfMultiply_cases (p : List Byte) (s : State) :
    (p.length ≠ 2 ∧ execGfMultiply p s = raise .illegalCommand s) ∨
    ∃ a b, p = [a, b] ∧ execGfMultiply p s = respondOk [gmul a b] s := by
  match p with
  | [] => exact .inl ⟨by simp, rfl⟩
  | [_] => exact .inl ⟨by simp, rfl⟩
  | [a, b] => exact .inr ⟨a, b, rfl, rfl⟩
  | _ :: _ :: _ :: _ => exact .inl ⟨by simp, rfl⟩

theorem execSboxFwd_cases (p : List Byte) (s : State) :
    (p.length ≠ 1 ∧ execSboxFwd p s = raise .illegalCommand s) ∨
    ∃ x, p = [x] ∧ execSboxFwd p s = respondOk [sbox x] s := by
  match p with
  | [] => exact .inl ⟨by simp, rfl⟩
  | [x] => exact .inr ⟨x, rfl, rfl⟩
  | _ :: _ :: _ => exact .inl ⟨by simp, rfl⟩

theorem execSboxInv_cases (p : List Byte) (s : State) :
    (p.length ≠ 1 ∧ execSboxInv p s = raise .illegalCommand s) ∨
    ∃ x, p = [x] ∧ execSboxInv p s = respondOk [isbox x] s := by
  match p with
  | [] => exact .inl ⟨by simp, rfl⟩
  | [x] => exact .inr ⟨x, rfl, rfl⟩
  | _ :: _ :: _ => exact .inl ⟨by simp, rfl⟩

theorem execExpandKey_cases (p : List Byte) (s : State) :
    ((p.length ≠ 16 ∧ p.length ≠ 24 ∧ p.length ≠ 32) ∧ execExpandKey p s = raise .invalidKeySize s) ∨
    ∃ k, k ≠ .noKey ∧ p.length = keyBytes k ∧
      execExpandKey p s =
        respondOk ((overlay s.key.ks (keySchedule p)).toList.take (scheduleBytes k))
          { s with key := { ksize := k, ks := overlay s.key.ks (keySchedule p) } } := by
  cases h : keyOperand p with
  | none => exact .inl ⟨keyOperand_eq_none.mp h, by simp [execExpandKey, h]⟩
  | some k =>
    obtain ⟨hk, hl⟩ := keyOperand_eq_some.mp h
    exact .inr ⟨k, hk, hl, by simp [execExpandKey, h]⟩

theorem execEncryptBlock_cases (p : List Byte) (s : State) :
    (p.length ≠ 16 ∧ execEncryptBlock p s = raise .invalidBlockLength s) ∨
    (p.length = 16 ∧ s.key.ksize = .noKey ∧ execEncryptBlock p s = raise .invalidKeySize s) ∨
    ∃ b : Vector Byte 16, p = b.toList ∧ s.key.ksize ≠ .noKey ∧
      execEncryptBlock p s = respondOk (encryptWith s.key b).toList s := by
  cases h : blockOperand p with
  | none => exact .inl ⟨blockOperand_eq_none.mp h, by simp [execEncryptBlock, h]⟩
  | some b =>
    have hp := blockOperand_eq_some.mp h
    by_cases hk : s.key.ksize = .noKey
    · exact .inr (.inl ⟨by simp [hp], hk, by simp [execEncryptBlock, h, hk]⟩)
    · exact .inr (.inr ⟨b, hp, hk, by simp [execEncryptBlock, h, hk]⟩)

theorem execDecryptBlock_cases (p : List Byte) (s : State) :
    (p.length ≠ 16 ∧ execDecryptBlock p s = raise .invalidBlockLength s) ∨
    (p.length = 16 ∧ s.key.ksize = .noKey ∧ execDecryptBlock p s = raise .invalidKeySize s) ∨
    ∃ b : Vector Byte 16, p = b.toList ∧ s.key.ksize ≠ .noKey ∧
      execDecryptBlock p s = respondOk (decryptWith s.key b).toList s := by
  cases h : blockOperand p with
  | none => exact .inl ⟨blockOperand_eq_none.mp h, by simp [execDecryptBlock, h]⟩
  | some b =>
    have hp := blockOperand_eq_some.mp h
    by_cases hk : s.key.ksize = .noKey
    · exact .inr (.inl ⟨by simp [hp], hk, by simp [execDecryptBlock, h, hk]⟩)
    · exact .inr (.inr ⟨b, hp, hk, by simp [execDecryptBlock, h, hk]⟩)

theorem execShaStart_cases (p : List Byte) (s : State) :
    (p ≠ [] ∧ execShaStart p s = raise .illegalCommand s) ∨
    (p = [] ∧ execShaStart p s = respondOk [] { s with digest := startDigest s.digest }) := by
  cases p with
  | nil => exact .inr ⟨rfl, rfl⟩
  | cons x xs => exact .inl ⟨by simp, rfl⟩

theorem execShaAdd_cases (p : List Byte) (s : State) :
    (s.digest.phase ≠ .accumulating ∧ execShaAdd p s = raise .digestMisuse s) ∨
    (s.digest.phase = .accumulating ∧
      execShaAdd p s = respondOk [] { s with digest := appendBytes s.digest p }) := by
  cases h : s.digest.phase <;> simp [execShaAdd, h]

theorem execShaFinish_cases (p : List Byte) (s : State) :
    (p ≠ [] ∧ execShaFinish p s = raise .illegalCommand s) ∨
    (p = [] ∧ s.digest.phase ≠ .accumulating ∧ execShaFinish p s = raise .digestMisuse s) ∨
    (p = [] ∧ s.digest.phase = .accumulating ∧
      execShaFinish p s =
        respondOk (digestBytes (finishDigest s.digest).h) { s with digest := finishDigest s.digest }) := by
  cases p with
  | nil => cases h : s.digest.phase <;> simp [execShaFinish, noOperand, h]
  | cons x xs => exact .inl ⟨by simp, rfl⟩

end Sys2Proof.Machine
end

