-- ==== Sys2Proof/Laws/PerInstr.lean ====
section
/-! SUPPORT. Facts about every command as syntax, made one constructor at a time: the bytes of its packet's header (rules R50,
R54). -/

namespace Sys2Proof.Laws.HeaderBytes

/-- The packet of a command is its opcode, its payload's length in one byte, then its payload (R50). -/
def Statement (i : Instr) : Prop :=
  encode i = i.opcode :: BitVec.ofNat 8 i.payload.length :: i.payload ∧ 1 ≤ i.opcode.toNat ∧ i.opcode.toNat ≤ 9

theorem gfMultiply (p : List Byte) : Statement (.gfMultiply p) := ⟨rfl, by simp [Instr.opcode], by simp [Instr.opcode]⟩
theorem sboxFwd (p : List Byte) : Statement (.sboxFwd p) := ⟨rfl, by simp [Instr.opcode], by simp [Instr.opcode]⟩
theorem sboxInv (p : List Byte) : Statement (.sboxInv p) := ⟨rfl, by simp [Instr.opcode], by simp [Instr.opcode]⟩
theorem expandKey (p : List Byte) : Statement (.expandKey p) := ⟨rfl, by simp [Instr.opcode], by simp [Instr.opcode]⟩
theorem encryptBlock (p : List Byte) : Statement (.encryptBlock p) := ⟨rfl, by simp [Instr.opcode], by simp [Instr.opcode]⟩
theorem decryptBlock (p : List Byte) : Statement (.decryptBlock p) := ⟨rfl, by simp [Instr.opcode], by simp [Instr.opcode]⟩
theorem shaStart (p : List Byte) : Statement (.shaStart p) := ⟨rfl, by simp [Instr.opcode], by simp [Instr.opcode]⟩
theorem shaAdd (p : List Byte) : Statement (.shaAdd p) := ⟨rfl, by simp [Instr.opcode], by simp [Instr.opcode]⟩
theorem shaFinish (p : List Byte) : Statement (.shaFinish p) := ⟨rfl, by simp [Instr.opcode], by simp [Instr.opcode]⟩

end Sys2Proof.Laws.HeaderBytes
end

