-- ==== Sys2Proof/Laws/Step.lean ====
section
/-! SUPPORT. Everything a step can do, said once: later proofs cite `step_cases` and do not unfold the step. -/

namespace Sys2Proof.Machine

/-- The events after the first `n` leading bytes: the other leading bytes, then what follows them. -/
theorem input_split (s : State) (n : Nat) (h : n ≤ (fetchBytes s).length) :
    s.input = ((fetchBytes s).take n).map .byte ++ s.input.drop n := by
  obtain ⟨tail, ht, -⟩ := input_eq_leadingBytes s.input
  have hl : n ≤ ((leadingBytes s.input).map HostEvent.byte).length := by simpa [fetchBytes] using h
  have hd : s.input.drop n = ((leadingBytes s.input).drop n).map .byte ++ tail := by
    rw [List.map_drop, ← List.drop_append_of_le_length hl, ← ht]
  rw [hd, ← List.append_assoc, ← List.map_append]
  simpa [fetchBytes] using ht

/-- Where the decoder reads a whole packet, the bytes it takes are that packet's. -/
theorem decode_cases (bs : List Byte) :
    (∃ op p, p.length ≤ 255 ∧ 2 + p.length ≤ bs.length ∧ bs.take (2 + p.length) = packet op p ∧
      decode bs = match instrOf op p with
        | some i => .command i (2 + p.length)
        | none => .illegalOpcode op (2 + p.length)) ∨
    decode bs = .short := by
  match bs with
  | [] => exact .inr rfl
  | [_] => exact .inr rfl
  | op :: len :: rest =>
    by_cases h : rest.length < len.toNat
    · exact .inr (by simp [decode, h])
    · have hp : (rest.take len.toNat).length = len.toNat := by simp; omega
      have hl := len.isLt
      have hb : op :: len :: rest = packet op (rest.take len.toNat) ++ rest.drop len.toNat := by
        simp [packet, hp]
      refine .inl ⟨op, rest.take len.toNat, by omega, by simp; omega, ?_, ?_⟩
      · rw [hp, Nat.add_comm]
        simp [packet, hp]
      · rw [hb]
        exact decode_packet op _ _ (by omega)

/-- Everything a step can do: perform a command or answer an illegal packet, with the packet taken and no reset arriving
meanwhile; or wait; or perform the host's reset event, which drops or abandons the bytes ahead of it. -/
theorem step_cases (s : State) :
    (∃ i rest, i.WellFormed ∧ s.input = (encode i).map .byte ++ rest ∧ (∀ r, rest ≠ .reset .duringCommand :: r) ∧
      step s = exec i { s with input := rest }) ∨
    (∃ op p rest, p.length ≤ 255 ∧ instrOf op p = none ∧ s.input = (packet op p).map .byte ++ rest ∧
      (∀ r, rest ≠ .reset .duringCommand :: r) ∧ step s = raise .illegalCommand { s with input := rest }) ∨
    (s.input = (fetchBytes s).map .byte ∧ step s = .next s) ∨
    ∃ time rest, s.input = (fetchBytes s).map .byte ++ .reset time :: rest ∧ step s = .next (resetEvent rest s) := by
  obtain ⟨op, p, hp, hl, ht, hd⟩ | hd := decode_cases (fetchBytes s)
  · have hin := input_split s _ hl
    rw [ht] at hin
    have habandon : ∀ r, s.input.drop (2 + p.length) = .reset .duringCommand :: r →
        s.input = (fetchBytes s).map .byte ++ .reset .duringCommand :: r := by
      intro r hr
      have hf : fetchBytes s = packet op p := by
        rw [fetchBytes, hin, hr, leadingBytes_map_append, leadingBytes_reset, List.append_nil]
      rw [hf, ← hr]
      exact hin
    cases hi : instrOf op p with
    | some i =>
      obtain ⟨ho, hpay⟩ := instrOf_some hi
      have hs : step s = perform (2 + p.length) (exec i) s := by simp only [step, hd, hi]
      obtain ⟨hn, he⟩ | ⟨r, hr, he⟩ := perform_cases (2 + p.length) (exec i) s
      · exact .inl ⟨i, _, by rw [Instr.WellFormed, hpay]; exact hp, by rw [encode, ho, hpay]; exact hin, hn, hs.trans he⟩
      · exact .inr (.inr (.inr ⟨_, r, habandon r hr, hs.trans he⟩))
    | none =>
      have hs : step s = perform (2 + p.length) answerIllegalOpcode s := by simp only [step, hd, hi]
      obtain ⟨hn, he⟩ | ⟨r, hr, he⟩ := perform_cases (2 + p.length) answerIllegalOpcode s
      · exact .inr (.inl ⟨op, p, _, hp, hi, hin, hn, hs.trans he⟩)
      · exact .inr (.inr (.inr ⟨_, r, habandon r hr, hs.trans he⟩))
  · have hs : step s = awaitHost s := by simp only [step, hd]
    obtain ⟨h, he⟩ | ⟨time, rest, h, he⟩ := awaitHost_cases s
    · exact .inr (.inr (.inl ⟨h, hs.trans he⟩))
    · exact .inr (.inr (.inr ⟨time, rest, h, hs.trans he⟩))

end Sys2Proof.Machine
end

