-- ==== Sys2Proof/Tests/Slice0.lean ====
section
/-! SUPPORT. Tests whose expected values are the spec's (spec/95_test_vectors.md, vector numbers T; spec/30_encoding.md), and for
every statement with hypotheses a witness that meets them. -/

open Sys2Proof Sys2Proof.Machine

namespace Sys2Proof.Tests

/-! ### Helpers -/

/-- The state a result answers; the reset state where it is none. -/
def stateOf : Result → State
  | .next t => t
  | _ => State.reset

/-- The response bytes in the state a result answers. -/
def answer (r : Result) : List Byte := (stateOf r).output

/-- The state after reset with `es` sent by the host. -/
def sent (es : List HostEvent) : State := { State.reset with input := es }

/-- Bytes from numerals. -/
def bytes (ns : List Nat) : List Byte := ns.map (BitVec.ofNat 8)

/-- The `n`-byte key `00 01 02 …`. -/
def countingKey (n : Nat) : List Byte := bytes (List.range n)

/-- A key loaded: the reset state with the schedule of `countingKey` in the key slot. -/
def keyed (k : KeySize) : State :=
  { State.reset with
    key := { ksize := k, ks := overlay (Vector.ofFn fun _ => 0xEE) (keySchedule (countingKey (keyBytes k))) } }

/-- A digest in progress, or not: phase `ph`, the initial `H`, and `n` bytes 0x61 given. -/
def digesting (ph : Phase) (n : Nat) (h : n < 64) : State :=
  { State.reset with
    digest :=
      { phase := ph
        h := shaIv
        buf := Vector.ofFn fun j => if j.val < n then 0x61 else 0xEE
        idx := ⟨n, by omega⟩
        bitcnt := BitVec.ofNat 64 (8 * n) } }

/-- A digest in progress with "abc" given. -/
def digestingAbc : State :=
  { State.reset with
    digest :=
      { phase := .accumulating
        h := shaIv
        buf := Vector.ofFn fun j => byteAt [0x61, 0x62, 0x63] j.val
        idx := 3
        bitcnt := 24 } }

/-- The plaintext `00112233…ff` of T1. -/
def plain : List Byte := bytes ((List.range 16).map (17 * ·))

/-! ### WellFormed (R50, R60): 256 payload bytes are refused, 255 are not -/

theorem test_payload_of_256_is_ill_formed : ¬ (Instr.shaAdd (List.replicate 256 0x00)).WellFormed := by decide +kernel
theorem test_payload_of_255_is_well_formed : (Instr.shaAdd (List.replicate 255 0x00)).WellFormed := by decide +kernel

/-! ### Decoding (R50, R52, R54, R55, R58): each word written out from the opcode map -/

theorem test_decode_gf_multiply : decode [0x01, 0x02, 0x02, 0x80] = .command (.gfMultiply [0x02, 0x80]) 4 := by decide
theorem test_decode_sbox_fwd : decode [0x02, 0x01, 0xC9] = .command (.sboxFwd [0xC9]) 3 := by decide
theorem test_decode_sbox_inv : decode [0x03, 0x01, 0xED] = .command (.sboxInv [0xED]) 3 := by decide
theorem test_decode_expand_key : decode [0x04, 0x03, 0x0A, 0x0B, 0x0C] = .command (.expandKey [0x0A, 0x0B, 0x0C]) 5 := by decide
theorem test_decode_encrypt_block : decode [0x05, 0x01, 0x06, 0x07] = .command (.encryptBlock [0x06]) 3 := by decide
theorem test_decode_decrypt_block : decode [0x06, 0x00, 0x09] = .command (.decryptBlock []) 2 := by decide
theorem test_decode_sha_start : decode [0x07, 0x00] = .command (.shaStart []) 2 := by decide
theorem test_decode_sha_add : decode [0x08, 0x03, 0x61, 0x62, 0x63] = .command (.shaAdd [0x61, 0x62, 0x63]) 5 := by decide
theorem test_decode_sha_finish : decode [0x09, 0x00] = .command (.shaFinish []) 2 := by decide
theorem test_table_word_gf_multiply : decodeTableWord 16 0x0102 = some (.gfMultiply [0x00, 0x00]) := by decide
theorem test_table_word_with_payload : decodeTableWord 32 0x57830102 = some (.gfMultiply [0x57, 0x83]) := by decide
theorem test_table_word_sha_finish : decodeTableWord 16 0x0900 = some (.shaFinish []) := by decide
theorem test_table_word_no_command : decodeTableWord 16 0x0A00 = none ∧ decodeTableWord 16 0x0000 = none := by decide

/-! ### Commands, one step each -/

/-- T9. -/
theorem test_gf_multiply : answer (execGfMultiply [0x57, 0x83] State.reset) = [0x00, 0x01, 0xC1] := by decide
/-- T12. -/
theorem test_gf_multiply_three_bytes : answer (execGfMultiply [0x57, 0x83, 0x00] State.reset) = [0x05, 0x00] := by decide
/-- T13. -/
theorem test_sbox_fwd : answer (execSboxFwd [0x53] State.reset) = [0x00, 0x01, 0xED] := by decide +kernel
/-- T13. -/
theorem test_sbox_inv : answer (execSboxInv [0xED] State.reset) = [0x00, 0x01, 0x53] := by decide +kernel
/-- R81, R82: first, row 7 last, and last entries of the tables. -/
theorem test_sbox_corners :
    [sbox 0x00, sbox 0x7F, sbox 0xFF, isbox 0x00, isbox 0x7F, isbox 0xFF] = [0x63, 0xD2, 0x16, 0x52, 0x6B, 0x7D] := by
  decide +kernel
/-- T17: the response's header, `w[4]` and `w[43]`. -/
theorem test_expand_key_16 :
    let r := answer (execExpandKey (countingKey 16) State.reset)
    r.take 2 = [0x00, 0xB0] ∧ (r.drop 18).take 4 = [0xD6, 0xAA, 0x74, 0xFD] ∧ r.drop 174 = [0x4D, 0x2B, 0x30, 0xC5] := by
  decide +kernel
/-- T19: `w[8]`, `w[12]` (the SubWord-only step) and `w[59]`. -/
theorem test_expand_key_32 :
    let w := expandKey (countingKey 32)
    [wordAt w 8, wordAt w 12, wordAt w 59] = [0xA573C29F, 0x1651A8CD, 0x6D68DE36] := by
  decide +kernel
/-- T1. -/
theorem test_encrypt_block_16 : answer (execEncryptBlock plain (keyed .bytes16)) =
    bytes [0x00, 0x10, 0x69, 0xC4, 0xE0, 0xD8, 0x6A, 0x7B, 0x04, 0x30, 0xD8, 0xCD, 0xB7, 0x80, 0x70, 0xB4, 0xC5, 0x5A] := by
  decide +kernel
/-- T26. -/
theorem test_decrypt_block_32 : answer (execDecryptBlock
      (bytes [0x8E, 0xA2, 0xB7, 0xCA, 0x51, 0x67, 0x45, 0xBF, 0xEA, 0xFC, 0x49, 0x90, 0x4B, 0x49, 0x60, 0x89])
      (keyed .bytes32)) = 0x00 :: 0x10 :: plain := by
  decide +kernel
/-- T28: the length is checked before the key. -/
theorem test_encrypt_block_length_first : answer (execEncryptBlock [] State.reset) = [0x02, 0x00] := by decide
/-- T28: no key. -/
theorem test_decrypt_block_no_key : answer (execDecryptBlock plain State.reset) = [0x01, 0x00] := by decide
/-- T39: nothing is reset. -/
theorem test_sha_start_with_payload :
    let t := stateOf (execShaStart [0x00] digestingAbc)
    t.output = [0x05, 0x00] ∧ t.digest = digestingAbc.digest := by decide +kernel
/-- R131. -/
theorem test_sha_start :
    let t := stateOf (execShaStart [] digestingAbc)
    t.digest.phase = .accumulating ∧ t.digest.idx = 0 ∧ t.digest.bitcnt = 0 ∧ t.digest.buf = digestingAbc.digest.buf := by
  decide +kernel
/-- R128: the 64th byte is compressed at once. -/
theorem test_sha_add_fills_the_buffer :
    let t := stateOf (execShaAdd [0x61, 0x61] (digesting .accumulating 63 (by decide)))
    t.output = [0x00, 0x00] ∧ t.digest.idx = 1 ∧ t.digest.bitcnt = 520 ∧ t.digest.h ≠ shaIv := by decide +kernel
/-- T38. -/
theorem test_sha_add_finalized : answer (execShaAdd [] (digesting .finalized 3 (by decide))) = [0x03, 0x00] := by decide +kernel
/-- T2: "abc". -/
theorem test_sha_finish_abc : answer (execShaFinish [] digestingAbc) =
    bytes [0x00, 0x20, 0xBA, 0x78, 0x16, 0xBF, 0x8F, 0x01, 0xCF, 0xEA, 0x41, 0x41, 0x40, 0xDE, 0x5D, 0xAE, 0x22, 0x23, 0xB0,
      0x03, 0x61, 0xA3, 0x96, 0x17, 0x7A, 0x9C, 0xB4, 0x10, 0xFF, 0x61, 0xF2, 0x00, 0x15, 0xAD] := by decide +kernel
/-- T33: 56 bytes take two compressions. -/
theorem test_sha_finish_56 : (answer (execShaFinish [] (digesting .accumulating 56 (by decide)))).take 6 =
    [0x00, 0x20, 0xB3, 0x54, 0x39, 0xA4] := by decide +kernel

/-! ### The stream -/

/-- T41: the payload of an illegal opcode is taken with it. -/
theorem test_illegal_opcode :
    let t := stateOf (step (sent ([0x0A, 0x03, 0x07, 0x00, 0x09, 0x02, 0x01, 0x53].map .byte)))
    t.output = [0x05, 0x00] ∧ t.input = [0x02, 0x01, 0x53].map .byte ∧ t.digest.phase = .idle := by decide +kernel
/-- R162: the reset event drops two bytes of a partial packet. -/
theorem test_reset_drops_a_partial_packet :
    let t := stateOf (step { keyed .bytes16 with input := [.byte 0x08, .byte 0x03, .reset .betweenCommands, .byte 0x07], output := [0x00] })
    t.output = [] ∧ t.input = [.byte 0x07] ∧ t.key.ksize = .noKey := by decide +kernel
/-- R162: a reset that arrives while SHA_START is being performed abandons it, with no response. -/
theorem test_reset_abandons_a_command :
    let t := stateOf (step { keyed .bytes16 with input := [.byte 0x07, .byte 0x00, .reset .duringCommand, .byte 0x09] })
    t.output = [] ∧ t.input = [.byte 0x09] ∧ t.key.ksize = .noKey ∧ t.digest.phase = .idle := by decide +kernel
/-- The same bytes with the reset after the response: the command is performed, and the reset is still to come. -/
theorem test_reset_after_a_command :
    let t := stateOf (step { keyed .bytes16 with input := [.byte 0x07, .byte 0x00, .reset .betweenCommands] })
    t.output = [0x00, 0x00] ∧ t.input = [.reset .betweenCommands] ∧ t.digest.phase = .accumulating := by decide +kernel
/-- R62, the `ENCRYPT_PADDED 61` of T27. -/
theorem test_encrypt_padded : assemble (.encryptPadded [0x61]) = some ([0x05, 0x10, 0x61] ++ List.replicate 15 0x00) := by decide
/-- R60. -/
theorem test_assemble_refuses_256_bytes : assemble (.raw 0x0A (List.replicate 256 0x00)) = none := by decide +kernel

/-! ### Witnesses: for each statement with hypotheses, values that meet them, at the ends of their ranges -/

theorem witness_DecodeOfEncodeIsTheCommand :
    (Instr.shaAdd []).WellFormed ∧ (Instr.shaAdd (List.replicate 255 0xFF)).WellFormed := by decide +kernel

theorem witness_EncodeOfDecodeIsThePacket : ∃ i n, decode [0x02, 0x01, 0x53, 0x09] = .command i n := ⟨_, _, rfl⟩

theorem witness_EveryPacketIsTakenWholeAndAnsweredOnce :
    (([] : List Byte).length = (0x00 : Byte).toNat ∧
      (sent [.byte 0x07, .byte 0x00]).input = ([0x07, 0x00] ++ []).map .byte ++ []) ∧
    (List.replicate 255 (0x00 : Byte)).length = (0xFF : Byte).toNat ∧
    (sent ((0x0A :: 0xFF :: List.replicate 255 0x00).map .byte ++ [.reset .betweenCommands])).input =
      (0x0A :: 0xFF :: List.replicate 255 0x00).map .byte ++ [.reset .betweenCommands] ∧
    (∀ es, ([] : List HostEvent) ≠ .reset .duringCommand :: es) ∧
    (∀ es, ([.reset .betweenCommands] : List HostEvent) ≠ .reset .duringCommand :: es) ∧
    ∃ es, (sent [.byte 0x07, .byte 0x00, .reset .duringCommand]).input =
      ([0x07, 0x00] ++ []).map .byte ++ .reset .duringCommand :: es :=
  ⟨⟨rfl, rfl⟩, by decide +kernel, rfl, nofun, fun _ => by simp, _, rfl⟩

theorem witness_IllegalOpcodeIsAnsweredIllegalCommand :
    (∀ op ∈ ([0x00, 0x0A, 0xFF] : List Byte), op.toNat = 0 ∨ 0x0A ≤ op.toNat) ∧
    ([0x07, 0x00, 0x09] : List Byte).length ≤ 255 ∧
    (sent ([0x0A, 0x03, 0x07, 0x00, 0x09].map .byte)).input =
      (0x0A :: BitVec.ofNat 8 3 :: [0x07, 0x00, 0x09]).map .byte ++ [] ∧
    ∀ es, ([] : List HostEvent) ≠ .reset .duringCommand :: es := ⟨by decide, by decide, rfl, nofun⟩

theorem witness_StepRunsTheDecodedCommand :
    (Instr.gfMultiply [0x57, 0x83]).WellFormed ∧
    (sent ([0x01, 0x02, 0x57, 0x83, 0x07].map .byte)).input =
      (encode (.gfMultiply [0x57, 0x83])).map .byte ++ [.byte 0x07] ∧
    (∀ es, ([.byte 0x07] : List HostEvent) ≠ .reset .duringCommand :: es) ∧
    ∃ es, ([.reset .duringCommand, .byte 0x07] : List HostEvent) = .reset .duringCommand :: es := ⟨by decide, rfl, nofun, _, rfl⟩

theorem witness_OfferedTableWordIsTheCommandRun :
    decodeTableWord 16 0x0700 = some (.shaStart []) ∧ decodeTableWord 32 0x57830102 = some (.gfMultiply [0x57, 0x83]) ∧
    (∀ time es, State.reset.input ≠ .reset time :: es) ∧
    ∃ time es, (sent [.reset .duringCommand, .byte 0x07]).input = .reset time :: es :=
  ⟨by decide, by decide, nofun, _, _, rfl⟩

theorem witness_ShortPacketWaits :
    (∃ bs : List Byte, (sent [.byte 0x08]).input = bs.map .byte ∧ bs.length < 2) ∧
    ∃ (bs : List Byte) (op len : Byte) (p : List Byte),
      (sent [.byte 0x08, .byte 0x02, .byte 0x61]).input = bs.map .byte ∧ bs = op :: len :: p ∧ p.length < len.toNat :=
  ⟨⟨[0x08], rfl, by decide⟩, [0x08, 0x02, 0x61], 0x08, 0x02, [0x61], rfl, rfl, by decide⟩

theorem witness_ResetDropsThePartialPacketKeyAndDigest :
    (sent [.reset .betweenCommands]).input = ([] : List Byte).map .byte ++ .reset .betweenCommands :: [] ∧
    ([] : List Byte).length < 2 ∧
    (sent [.byte 0x08, .byte 0x02, .byte 0x61, .reset .duringCommand, .byte 0x07]).input =
      [0x08, 0x02, 0x61].map .byte ++ .reset .duringCommand :: [.byte 0x07] ∧ ([0x61] : List Byte).length < (0x02 : Byte).toNat :=
  ⟨rfl, by decide, rfl, by decide⟩

theorem witness_GfMultiplyAnswersTheProduct : ∀ p ∈ ([[], [0x57], [0x57, 0x83, 0x00]] : List (List Byte)), p.length ≠ 2 := by
  decide

theorem witness_GmulIsTheProductOfAField :
    gmul 0x00 0xFF = 0 ∧ (0x53 : Byte) ≠ 0 ∧ gmul 0x53 0xCA = 1 := by decide

theorem witness_SboxCommandsAnswerTheTableEntries : ∀ p ∈ ([[], [0x53, 0x53]] : List (List Byte)), p.length ≠ 1 := by decide

theorem witness_SboxTableFollowsItsConstruction : ∀ i ∈ [0, 7], i < 8 := by decide

theorem witness_ExpandKeyLoadsTheKeySlot :
    (∀ k ∈ [KeySize.bytes16, .bytes24, .bytes32], k ≠ .noKey ∧ (countingKey (keyBytes k)).length = keyBytes k) ∧
    ∀ n ∈ [0, 15, 17, 31, 33, 255],
      (List.replicate n (0 : Byte)).length ≠ 16 ∧ (List.replicate n (0 : Byte)).length ≠ 24 ∧
      (List.replicate n (0 : Byte)).length ≠ 32 := by decide +kernel

theorem witness_ScheduleWordsFollowTheRecurrence : ∀ nk ∈ [4, 6, 8],
    (countingKey (4 * nk)).length = 4 * nk ∧ (nk = 4 ∨ nk = 6 ∨ nk = 8) ∧ nk - 1 < nk ∧
    nk < 4 * (nk + 6 + 1) ∧ nk ≤ 4 * (nk + 6 + 1) - 1 := by decide

theorem witness_ScheduleBytesBeginWithTheKeyAndAreBigEndian :
    (countingKey 32).length = 4 * 8 ∧ 59 < 4 * (8 + 7) := by decide

theorem witness_RoundConstantsAndTheEntriesNeverRead :
    (countingKey 16).length = 16 ∧
    ∀ j, 1 ≤ j → j ≤ 10 → (fun j => if j = 0 ∨ 10 < j then (0xFFFFFFFF : Word) else rcon j) j = rcon j := by
  refine ⟨by decide, fun j h1 h2 => ?_⟩
  simp only
  rw [if_neg (by omega)]

theorem witness_EncryptBlockAnswersTheCiphertext :
    (keyed .bytes16).key.ksize ≠ .noKey ∧ plain.length = 16 ∧ State.reset.key.ksize = .noKey ∧
    ∀ p ∈ ([[], plain.drop 1, 0x00 :: plain] : List (List Byte)), p.length ≠ 16 := by decide

theorem witness_DecryptBlockAnswersThePlaintext :
    (keyed .bytes32).key.ksize ≠ .noKey ∧ plain.length = 16 ∧ State.reset.key.ksize = .noKey ∧
    (List.replicate 255 (0x00 : Byte)).length ≠ 16 := by decide +kernel

/-- The states before the rounds of `Cipher`, made one from the other. -/
def cipherStates (ks : Vector Byte 240) (st : Matrix4) : Nat → Matrix4
  | 0 => addRoundKey ks 0 st
  | k + 1 => addRoundKey ks (k + 1) (mixColumns (shiftRows (subBytes (cipherStates ks st k))))

/-- Those of `InvCipher`, counted down from round `R`. -/
def invCipherStates (ks : Vector Byte 240) (R : Nat) (st : Matrix4) : Nat → Matrix4
  | 0 => addRoundKey ks R st
  | j + 1 => invMixColumns (addRoundKey ks (R - (j + 1)) (invSubBytes (invShiftRows (invCipherStates ks R st j))))

theorem witness_CipherFollowsItsRoundSequence (ks : Vector Byte 240) (st : Matrix4) :
    ∃ S : Nat → Matrix4, 1 ≤ 10 ∧ S 0 = addRoundKey ks 0 st ∧
      ∀ k, 1 ≤ k → k ≤ 10 - 1 → S k = addRoundKey ks k (mixColumns (shiftRows (subBytes (S (k - 1))))) := by
  refine ⟨cipherStates ks st, by decide, rfl, fun k h1 _ => ?_⟩
  obtain ⟨j, rfl⟩ : ∃ j, k = j + 1 := ⟨k - 1, by omega⟩
  rfl

theorem witness_InvCipherFollowsItsRoundSequence (ks : Vector Byte 240) (st : Matrix4) :
    ∃ S : Nat → Matrix4, 1 ≤ 10 ∧ S 10 = addRoundKey ks 10 st ∧
      ∀ k, 1 ≤ k → k ≤ 10 - 1 → S k = invMixColumns (addRoundKey ks k (invSubBytes (invShiftRows (S (k + 1))))) := by
  refine ⟨fun k => invCipherStates ks 10 st (10 - k), by decide, rfl, fun k _ h2 => ?_⟩
  obtain ⟨j, hj, rfl⟩ : ∃ j, j < 10 ∧ k = 10 - (j + 1) := ⟨9 - k, by omega, by omega⟩
  have e1 : 10 - (10 - (j + 1)) = j + 1 := by omega
  have e2 : 10 - (10 - (j + 1) + 1) = j := by omega
  simp only [e1, e2, invCipherStates]

theorem witness_EncryptThenDecryptReturnsTheBlock :
    (countingKey 16).length = 16 ∧ (countingKey 24).length = 24 ∧ (countingKey 32).length = 32 := by decide

theorem witness_CipherResponseDependsOnKeySlotAndPayloadAlone : (sent [.reset .betweenCommands]).key = State.reset.key := rfl

/-- The first and last bit, and the bits where the shifts by 3 and 10 begin to take zeros. -/
theorem witness_ShaFunctionsBitByBit : ∀ i ∈ [0, 21, 22, 28, 29, 31], i < 32 := by decide

theorem witness_MessageScheduleFollowsTheRecurrence :
    (List.replicate 64 (0x61 : Byte)).length = 64 ∧ 15 < 16 ∧ 16 ≤ 63 ∧ 63 < 64 := by decide

/-- The working variables before each round, made one from the other. -/
def varsBefore (h : Vector Word 8) (block : List Byte) : Nat → WorkingVars
  | 0 => loadVars h
  | i + 1 => shaRound (varsBefore h block i) (wordAt shaK i, wordAt (messageSchedule block) i)

theorem witness_CompressionIsSixtyFourRoundsAndFeedForward (h : Vector Word 8) (block : List Byte) :
    ∃ V : Nat → WorkingVars,
      V 0 = { a := h[0], b := h[1], c := h[2], d := h[3], e := h[4], f := h[5], g := h[6], h := h[7] } ∧
      ∀ i < 64,
        let v := V i
        let t1 := v.h + bigSigma1 v.e + ch v.e v.f v.g + wordAt shaK i + wordAt (messageSchedule block) i
        let t2 := bigSigma0 v.a + maj v.a v.b v.c
        V (i + 1) = { a := t1 + t2, b := v.a, c := v.b, d := v.c, e := v.d + t1, f := v.e, g := v.f, h := v.g } :=
  ⟨varsBefore h block, by rw [varsBefore, loadVars], fun i _ => by rw [varsBefore, shaRound]⟩

theorem witness_AppendByteStoresCountsAndCompresses :
    (digesting .accumulating 0 (by decide)).digest.idx.val < 63 ∧ (digesting .accumulating 62 (by decide)).digest.idx.val < 63 ∧
    (digesting .accumulating 63 (by decide)).digest.idx.val = 63 := by decide

theorem witness_ShaStartBeginsANewDigest : ([0x00] : List Byte).length ≠ 0 := by decide

theorem witness_ShaAddAppendsThePayload :
    (digesting .accumulating 63 (by decide)).digest.phase = .accumulating ∧
    (digesting .accumulating 63 (by decide)).digest.idx.val < 64 ∧ State.reset.digest.phase ≠ .accumulating ∧
    (digesting .finalized 3 (by decide)).digest.phase ≠ .accumulating := by decide

theorem witness_ShaFinishPadsCompressesAndAnswers :
    (digesting .accumulating 0 (by decide)).digest.phase = .accumulating ∧
    (digesting .accumulating 0 (by decide)).digest.idx.val ≤ 55 ∧
    (digesting .accumulating 55 (by decide)).digest.idx.val ≤ 55 ∧
    56 ≤ (digesting .accumulating 56 (by decide)).digest.idx.val ∧
    56 ≤ (digesting .accumulating 63 (by decide)).digest.idx.val ∧
    (digesting .accumulating 63 (by decide)).digest.idx.val < 64 ∧
    State.reset.digest.phase ≠ .accumulating ∧ ([0x00] : List Byte).length ≠ 0 := by decide

theorem witness_PhaseMachineTable :
    digestingAbc.digest.phase = .accumulating ∧ State.reset.digest.phase ≠ .accumulating ∧
    (∀ p, Instr.gfMultiply [0x57, 0x83] ≠ .shaStart p ∧ Instr.gfMultiply [0x57, 0x83] ≠ .shaAdd p ∧
      Instr.gfMultiply [0x57, 0x83] ≠ .shaFinish p) ∧
    ∃ t, exec (.gfMultiply [0x57, 0x83]) digestingAbc = .next t := ⟨rfl, by decide, fun _ => ⟨nofun, nofun, nofun⟩, _, rfl⟩

theorem witness_SplittingTheMessageChangesNothing :
    digestingAbc.digest.phase = .accumulating ∧
    ([[], [0x61, 0x62], [], [0x63]] : List (List Byte)).flatten = [[0x61], [0x62, 0x63]].flatten := by decide

theorem witness_EncryptPaddedSendsTheZeroPaddedBlock :
    (∀ n ∈ [1, 15], 1 ≤ (List.replicate n (0x61 : Byte)).length ∧ (List.replicate n (0x61 : Byte)).length ≤ 15) ∧
    ∀ n ∈ [0, 16, 300], (List.replicate n (0x61 : Byte)).length = 0 ∨ 16 ≤ (List.replicate n (0x61 : Byte)).length := by
  decide +kernel

theorem witness_EveryCommandAnswersItsStatusAndLength :
    expectedStatus State.reset (.sboxFwd [0x53]) = .ok ∧ expectedStatus State.reset (.sboxFwd []) ≠ .ok := by decide

theorem witness_FailedCommandsChangeNoStore :
    ∀ i ∈ [Instr.gfMultiply [], .sboxFwd [], .sboxInv [], .expandKey [], .encryptBlock plain, .decryptBlock [], .shaStart [0x00],
        .shaAdd [], .shaFinish []], expectedStatus State.reset i ≠ .ok ∧ i.WellFormed ∧
        (sent ((encode i).map .byte)).input = (encode i).map .byte ++ [] ∧
        ∀ es, ([] : List HostEvent) ≠ .reset .duringCommand :: es := by
  refine fun i hi => ⟨?_, ?_, by simp [sent], nofun⟩
  · revert i; decide
  · revert i; decide

theorem witness_NoStepAnswersAllocationFailure : ∃ t, step (sent [.byte 0x07, .byte 0x00]) = .next t := ⟨_, rfl⟩

theorem witness_CommandsWriteOnlyTheirStores :
    (∃ t, exec (.gfMultiply [0x57]) State.reset = .next t) ∧ (∃ t, exec (.expandKey []) State.reset = .next t) ∧
    ∃ t, exec (.shaStart []) State.reset = .next t := ⟨⟨_, rfl⟩, ⟨_, rfl⟩, _, rfl⟩

theorem witness_KeySlotChangesOnlyByExpandKeyOrReset :
    ∃ t, step { keyed .bytes16 with input := [.reset .betweenCommands] } = .next t ∧ t.key ≠ (keyed .bytes16).key :=
  ⟨resetEvent [] { keyed .bytes16 with input := [.reset .betweenCommands] }, rfl, fun h => absurd (congrArg KeySlot.ksize h) (by decide)⟩

theorem witness_PhaseChangesOnlyByStartFinishOrReset :
    ∃ t, step (sent [.byte 0x07, .byte 0x00]) = .next t ∧ t.digest.phase ≠ (sent [.byte 0x07, .byte 0x00]).digest.phase :=
  ⟨_, rfl, by decide⟩

theorem witness_CipherAndDigestCommandsCommute :
    (∃ p, Instr.expandKey (countingKey 16) = .expandKey p) ∧ ∃ q, Instr.shaAdd [0x61] = .shaAdd q := ⟨⟨_, rfl⟩, _, rfl⟩

theorem witness_StreamOfPacketsYieldsAsManyResponses :
    (∀ q ∈ ([(0x0A, [0x07, 0x00, 0x09]), (0x02, [0x53])] : List (Byte × List Byte)), q.2.length ≤ 255) ∧
    (sent ([0x0A, 0x03, 0x07, 0x00, 0x09, 0x02, 0x01, 0x53].map .byte)).input =
      (([(0x0A, [0x07, 0x00, 0x09]), (0x02, [0x53])] : List (Byte × List Byte)).flatMap fun q => packet q.1 q.2).map .byte :=
  ⟨by decide, rfl⟩

/-- The invariant in a state with a key loaded and a digest of "a × 3" in progress. -/
theorem witness_EveryStepKeepsTheInvariant :
    ({ keyed .bytes16 with digest := (digesting .accumulating 3 (by decide)).digest } : State).Inv :=
  ⟨fun _ => by decide +kernel, fun _ => ⟨[0x61, 0x61, 0x61], by unfold DigestContext.Holds; decide +kernel⟩⟩

theorem witness_InvariantBoundsIdxAndBitcnt :
    ({ State.reset with digest := (digesting .accumulating 63 (by decide)).digest } : State).Inv ∧
    (digesting .accumulating 63 (by decide)).digest.phase = .accumulating :=
  ⟨⟨fun h => absurd rfl h, fun _ => ⟨List.replicate 63 0x61, by unfold DigestContext.Holds; decide +kernel⟩⟩, rfl⟩

/-- Two states that agree and differ in a byte of `KS` that no rule reads: `KS[176]` under a 16-byte key. -/
theorem witness_UnspecifiedContentIsNeverObserved :
    let s := { keyed .bytes16 with input := [.byte 0x07, .byte 0x00] }
    let s' := { s with key := { s.key with ks := s.key.ks.set 176 0x00 } }
    s.Agree s' ∧ s ≠ s' ∧ (∃ t, step s = .next t) ∧ ∃ t, step s' = .next t := by
  refine ⟨⟨⟨rfl, fun _ => by decide +kernel⟩, ⟨rfl, fun h => ⟨rfl, rfl, rfl, rfl⟩⟩, rfl, rfl⟩, ?_, ⟨_, rfl⟩, _, rfl⟩
  intro h
  exact absurd (congrArg (fun s => s.key.ks[176]) h) (by decide +kernel)

theorem witness_ResetLeavesNothingToObserve :
    (∃ t, step { keyed .bytes16 with input := [.reset .betweenCommands] } = .next t) ∧
    ∃ t, step { digestingAbc with input := [.reset .duringCommand] } = .next t := ⟨⟨_, rfl⟩, _, rfl⟩

theorem witness_ResetAbandonsTheCommandInHand :
    (∃ (bs : List Byte) (rest : List HostEvent), (sent [.byte 0x08, .reset .betweenCommands]).input =
      bs.map .byte ++ .reset .betweenCommands :: rest ∧ bs.length < 2) ∧
    (∃ (bs : List Byte) (op len : Byte) (p : List Byte) (rest : List HostEvent),
      (sent [.byte 0x08, .byte 0x02, .byte 0x61, .reset .betweenCommands]).input =
        bs.map .byte ++ .reset .betweenCommands :: rest ∧ bs = op :: len :: p ∧ p.length < len.toNat) ∧
    ∃ (bs : List Byte) (op len : Byte) (p : List Byte) (rest : List HostEvent),
      (sent [.byte 0x08, .byte 0x01, .byte 0x61, .reset .duringCommand]).input =
        bs.map .byte ++ .reset .duringCommand :: rest ∧ bs = op :: len :: p ∧ p.length = len.toNat :=
  ⟨⟨[0x08], [], rfl, by decide⟩, ⟨[0x08, 0x02, 0x61], 0x08, 0x02, [0x61], [], rfl, rfl, by decide⟩,
    [0x08, 0x01, 0x61], 0x08, 0x01, [0x61], [], rfl, rfl, by decide⟩

end Sys2Proof.Tests
end

section
/-! PROOFS. Family 00_scope: the digest engine is independent of the cipher components (R3). What a key or cipher command does is a
function of the key slot alone, and what a digest command does a function of the digest context alone; two commands that work on
different stores commute. -/

namespace Sys2Proof.Machine

/-! ### Commands whose effect one store decides -/

/-- At key slot `k` the command leaves key slot `k'` and adds `r` to the response stream, whatever else the state holds (R38). -/
def KeyEffect (i : Instr) (k k' : KeySlot) (r : List Byte) : Prop :=
  ∀ s : State, s.key = k → exec i s = .next { s with key := k', output := s.output ++ r }

/-- At digest context `d` the command leaves digest context `d'` and adds `r` to the response stream, whatever else the state
holds (R38). -/
def DigestEffect (j : Instr) (d d' : DigestContext) (r : List Byte) : Prop :=
  ∀ s : State, s.digest = d → exec j s = .next { s with digest := d', output := s.output ++ r }

theorem keyEffect_of_raise {i : Instr} {k : KeySlot} (st : Status) (h : ∀ s, s.key = k → exec i s = raise st s) :
    KeyEffect i k k (responsePacket st []) := by
  rintro s rfl
  exact h s rfl

theorem keyEffect_of_respondOk {i : Instr} {k k' : KeySlot} (r : List Byte)
    (h : ∀ s, s.key = k → exec i s = respondOk r { s with key := k' }) : KeyEffect i k k' (responsePacket .ok r) := h

theorem digestEffect_of_raise {j : Instr} {d : DigestContext} (st : Status)
    (h : ∀ s, s.digest = d → exec j s = raise st s) : DigestEffect j d d (responsePacket st []) := by
  rintro s rfl
  exact h s rfl

theorem digestEffect_of_respondOk {j : Instr} {d d' : DigestContext} (r : List Byte)
    (h : ∀ s, s.digest = d → exec j s = respondOk r { s with digest := d' }) :
    DigestEffect j d d' (responsePacket .ok r) := h

/-! ### The key and cipher commands -/

theorem expandKey_keyEffect (p : List Byte) (k : KeySlot) : ∃ k' r, KeyEffect (.expandKey p) k k' r := by
  cases hp : keyOperand p with
  | none => exact ⟨_, _, keyEffect_of_raise .invalidKeySize fun s _ => by simp [exec, execExpandKey, hp]⟩
  | some size =>
    exact ⟨⟨size, overlay k.ks (keySchedule p)⟩, _,
      keyEffect_of_respondOk ((overlay k.ks (keySchedule p)).toList.take (scheduleBytes size))
        fun s hs => by simp [exec, execExpandKey, hp, hs]⟩

/-- The meaning that ENCRYPT_BLOCK and DECRYPT_BLOCK share, over the function they answer (R111, R112). -/
def execCipher (f : KeySlot → Vector Byte 16 → Vector Byte 16) (p : List Byte) (s : State) : Result :=
  match blockOperand p with
  | none => raise .invalidBlockLength s
  | some block => if s.key.ksize = .noKey then raise .invalidKeySize s else respondOk (f s.key block).toList s

theorem exec_encryptBlock (p : List Byte) (s : State) : exec (.encryptBlock p) s = execCipher encryptWith p s := rfl

theorem exec_decryptBlock (p : List Byte) (s : State) : exec (.decryptBlock p) s = execCipher decryptWith p s := rfl

theorem cipher_keyEffect {i : Instr} {p : List Byte} (f : KeySlot → Vector Byte 16 → Vector Byte 16)
    (h : ∀ s, exec i s = execCipher f p s) (k : KeySlot) : ∃ k' r, KeyEffect i k k' r := by
  cases hb : blockOperand p with
  | none => exact ⟨_, _, keyEffect_of_raise .invalidBlockLength fun s _ => by simp [h, execCipher, hb]⟩
  | some block =>
    by_cases hk : k.ksize = .noKey
    · exact ⟨_, _, keyEffect_of_raise .invalidKeySize fun s hs => by simp [h, execCipher, hb, hs, hk]⟩
    · exact ⟨k, _, keyEffect_of_respondOk (f k block).toList fun s hs => by subst hs; simp [h, execCipher, hb, hk]⟩

/-! ### The digest commands -/

theorem shaStart_digestEffect (q : List Byte) (d : DigestContext) : ∃ d' r, DigestEffect (.shaStart q) d d' r := by
  by_cases hq : q = []
  · exact ⟨startDigest d, _, digestEffect_of_respondOk [] fun s hs => by
      simpa [exec, hq, hs] using execShaStart_cases q s⟩
  · exact ⟨_, _, digestEffect_of_raise .illegalCommand fun s _ => by simpa [exec, hq] using execShaStart_cases q s⟩

theorem shaAdd_digestEffect (q : List Byte) (d : DigestContext) : ∃ d' r, DigestEffect (.shaAdd q) d d' r := by
  by_cases hd : d.phase = .accumulating
  · exact ⟨appendBytes d q, _, digestEffect_of_respondOk [] fun s hs => by
      simpa [exec, hd, hs] using execShaAdd_cases q s⟩
  · exact ⟨_, _, digestEffect_of_raise .digestMisuse fun s hs => by simpa [exec, hd, hs] using execShaAdd_cases q s⟩

theorem shaFinish_digestEffect (q : List Byte) (d : DigestContext) : ∃ d' r, DigestEffect (.shaFinish q) d d' r := by
  by_cases hq : q = []
  · by_cases hd : d.phase = .accumulating
    · exact ⟨finishDigest d, _, digestEffect_of_respondOk (digestBytes (finishDigest d).h) fun s hs => by
        simpa [exec, hq, hd, hs] using execShaFinish_cases q s⟩
    · exact ⟨_, _, digestEffect_of_raise .digestMisuse fun s hs => by
        simpa [exec, hq, hd, hs] using execShaFinish_cases q s⟩
  · exact ⟨_, _, digestEffect_of_raise .illegalCommand fun s _ => by simpa [exec, hq] using execShaFinish_cases q s⟩

/-! ### Two commands in a row -/

theorem runCommands_pair {i j : Instr} {s t : State} (h : exec i s = .next t) : runCommands [i, j] s = exec j t := by
  simp only [runCommands, h]
  cases exec j t <;> rfl

/-- Settles O52: the key command reads and writes the key slot only, the digest command the digest context only, so the second finds
its own store as the first found it. -/
theorem cipherAndDigestCommandsCommute : Obligations.CipherAndDigestCommandsCommute := by
  intro s i j p q hi hj
  have hkey : ∃ k r, KeyEffect i s.key k r := by
    obtain rfl | rfl | rfl := hi
    · exact expandKey_keyEffect p s.key
    · exact cipher_keyEffect encryptWith (exec_encryptBlock p) s.key
    · exact cipher_keyEffect decryptWith (exec_decryptBlock p) s.key
  have hdigest : ∃ d r, DigestEffect j s.digest d r := by
    obtain rfl | rfl | rfl := hj
    · exact shaStart_digestEffect q s.digest
    · exact shaAdd_digestEffect q s.digest
    · exact shaFinish_digestEffect q s.digest
  obtain ⟨k, ri, hi⟩ := hkey
  obtain ⟨d, rj, hj⟩ := hdigest
  exact ⟨_, _, _, _, ri, rj, hi s rfl, rfl, hj s rfl, rfl,
    (runCommands_pair (hi s rfl)).trans (hj _ rfl), (runCommands_pair (hj s rfl)).trans (hi _ rfl), rfl, rfl, rfl, rfl⟩

end Sys2Proof.Machine
end

section
/-! PROOFS. Family 10_state: what a step can do to the two stores, the invariant of the reachable states (R15, R19 to R22), and
what no command can observe (R27). -/

namespace Sys2Proof.Machine

/-! ### What a command does to the stores -/

/-- Everything the command `i` can do to the stores (R38): from key slot `k` and digest context `d`, leave the two given. -/
inductive StoreEffect (k : KeySlot) (d : DigestContext) : Instr → KeySlot → DigestContext → Prop
  /-- a command that writes no store, or that ended at a check -/
  | keep (i : Instr) : StoreEffect k d i k d
  /-- EXPAND_KEY of a legal key (R95) -/
  | loadKey {p : List Byte} {size : KeySize} (hsize : size ≠ .noKey) (hp : p.length = keyBytes size) :
      StoreEffect k d (.expandKey p) { ksize := size, ks := overlay k.ks (keySchedule p) } d
  /-- SHA_START (R131) -/
  | start : StoreEffect k d (.shaStart []) k (startDigest d)
  /-- SHA_ADD in phase Accumulating (R132) -/
  | add {p : List Byte} (hd : d.phase = .accumulating) : StoreEffect k d (.shaAdd p) k (appendBytes d p)
  /-- SHA_FINISH in phase Accumulating (R133) -/
  | finish (hd : d.phase = .accumulating) : StoreEffect k d (.shaFinish []) k (finishDigest d)

/-- A command answers once and changes the stores as `StoreEffect` says, and nothing else. -/
theorem exec_storeEffect (i : Instr) (s : State) :
    ∃ k d r, exec i s = .next { s with key := k, digest := d, output := s.output ++ r } ∧
      StoreEffect s.key s.digest i k d := by
  cases i with
  | gfMultiply p => obtain ⟨-, h⟩ | ⟨a, b, -, h⟩ := execGfMultiply_cases p s <;> exact ⟨_, _, _, h, .keep _⟩
  | sboxFwd p => obtain ⟨-, h⟩ | ⟨x, -, h⟩ := execSboxFwd_cases p s <;> exact ⟨_, _, _, h, .keep _⟩
  | sboxInv p => obtain ⟨-, h⟩ | ⟨x, -, h⟩ := execSboxInv_cases p s <;> exact ⟨_, _, _, h, .keep _⟩
  | expandKey p =>
    obtain ⟨-, h⟩ | ⟨size, hsize, hp, h⟩ := execExpandKey_cases p s
    · exact ⟨_, _, _, h, .keep _⟩
    · exact ⟨_, _, _, h, .loadKey hsize hp⟩
  | encryptBlock p =>
    obtain ⟨-, h⟩ | ⟨-, -, h⟩ | ⟨b, -, -, h⟩ := execEncryptBlock_cases p s <;> exact ⟨_, _, _, h, .keep _⟩
  | decryptBlock p =>
    obtain ⟨-, h⟩ | ⟨-, -, h⟩ | ⟨b, -, -, h⟩ := execDecryptBlock_cases p s <;> exact ⟨_, _, _, h, .keep _⟩
  | shaStart p =>
    obtain ⟨-, h⟩ | ⟨rfl, h⟩ := execShaStart_cases p s
    · exact ⟨_, _, _, h, .keep _⟩
    · exact ⟨_, _, _, h, .start⟩
  | shaAdd p =>
    obtain ⟨-, h⟩ | ⟨hd, h⟩ := execShaAdd_cases p s
    · exact ⟨_, _, _, h, .keep _⟩
    · exact ⟨_, _, _, h, .add hd⟩
  | shaFinish p =>
    obtain ⟨-, h⟩ | ⟨-, -, h⟩ | ⟨rfl, hd, h⟩ := execShaFinish_cases p s
    · exact ⟨_, _, _, h, .keep _⟩
    · exact ⟨_, _, _, h, .keep _⟩
    · exact ⟨_, _, _, h, .finish hd⟩

/-- Everything a step can do to the stores: what the command at the head of the stream does; or nothing; or the reset event. -/
theorem step_stores {s t : State} (h : step s = .next t) :
    (∃ i, s.input = (encode i).map .byte ++ t.input ∧ StoreEffect s.key s.digest i t.key t.digest) ∨
    (t.key = s.key ∧ t.digest = s.digest) ∨
    ∃ (bs : List Byte) (time : ResetTime) (rest : List HostEvent),
      s.input = bs.map .byte ++ .reset time :: rest ∧ t = resetEvent rest s := by
  obtain ⟨i, rest, -, hin, -, hs⟩ | ⟨_, _, _, -, -, -, -, hs⟩ | ⟨-, hs⟩ | ⟨time, rest, hin, hs⟩ := step_cases s <;>
    rw [h] at hs
  · obtain ⟨k, d, r, he, heff⟩ := exec_storeEffect i { s with input := rest }
    cases hs.trans he
    exact .inl ⟨i, hin, heff⟩
  · cases hs
    exact .inr (.inl ⟨rfl, rfl⟩)
  · cases hs
    exact .inr (.inl ⟨rfl, rfl⟩)
  · cases hs
    exact .inr (.inr ⟨_, time, rest, hin, rfl⟩)

/-! ### The key slot is valid (R15) -/

theorem byteAt_eq_getElem {bs : List Byte} {j : Nat} (h : j < bs.length) : byteAt bs j = bs[j] := by
  simp [byteAt, h]

/-- Reading a byte string as big-endian words and writing them back gives its first bytes (R33). -/
theorem wordsToBytes_be32At (bs : List Byte) (n : Nat) (h : 4 * n ≤ bs.length) :
    wordsToBytes ((List.range n).map (be32At bs)) = bs.take (4 * n) := by
  induction n with
  | zero => rfl
  | succ n ih =>
    have htake : bs.take (4 * n + 4) = bs.take (4 * n) ++ bytesBe32 (be32At bs n) := by
      rw [List.take_succ_eq_append_getElem (by omega), List.take_succ_eq_append_getElem (by omega),
        List.take_succ_eq_append_getElem (by omega), List.take_succ_eq_append_getElem (by omega), be32At, bytesBe32_be32,
        byteAt_eq_getElem (by omega), byteAt_eq_getElem (by omega), byteAt_eq_getElem (by omega),
        byteAt_eq_getElem (by omega)]
      simp only [List.append_assoc, List.cons_append, List.nil_append]
    rw [List.range_succ, List.map_append, wordsToBytes_append, ih (by omega), Nat.mul_succ, htake, List.map_singleton,
      wordsToBytes_cons, wordsToBytes_nil, List.append_nil]

theorem wordsToBytes_keyWords {key : List Byte} {size : KeySize} (h : key.length = keyBytes size) :
    wordsToBytes (keyWords key) = key := by
  have hlen : 4 * (key.length / 4) = key.length := by cases size <;> simp [h, keyBytes]
  rw [keyWords, wordsToBytes_be32At key _ (by omega), hlen, List.take_length]

/-- The schedule begins with the key (R94). -/
theorem keySchedule_take_key {key : List Byte} {size : KeySize} (h : key.length = keyBytes size) :
    (keySchedule key).take (keyBytes size) = key := by
  obtain ⟨ws, hws⟩ := expandLoop_prefix rcon (key.length / 4) (4 * (key.length / 4 + 7) - key.length / 4) (keyWords key)
  rw [keySchedule, expandKey, expandKeyWith, ← hws, wordsToBytes_append, wordsToBytes_keyWords h, ← h, List.take_left]

/-- The length of the schedule of a key of a legal size (R90, R94). -/
theorem keySchedule_length {key : List Byte} {size : KeySize} (hsize : size ≠ .noKey) (h : key.length = keyBytes size) :
    (keySchedule key).length = scheduleBytes size := by
  rw [keySchedule, wordsToBytes_length, expandKey, expandKeyWith, expandLoop_length, keyWords_length, h]
  cases size <;> simp [keyBytes, scheduleBytes, keyRounds] at *

/-- EXPAND_KEY leaves the schedule of its key in the key slot (R95). -/
theorem overlay_keySchedule_take (ks : Vector Byte 240) {key : List Byte} {size : KeySize} (hsize : size ≠ .noKey)
    (h : key.length = keyBytes size) :
    (overlay ks (keySchedule key)).toList.take (scheduleBytes size) = keySchedule key := by
  have hlen := keySchedule_length hsize h
  rw [overlay_toList _ _ (hlen ▸ scheduleBytes_le size), ← hlen, List.take_left]

theorem keyBytes_le_scheduleBytes (size : KeySize) : keyBytes size ≤ scheduleBytes size := by
  cases size <;> decide

/-- The key slot EXPAND_KEY leaves is valid: the schedule it holds begins with the key it was expanded from. -/
theorem valid_expandKey (ks : Vector Byte 240) {key : List Byte} {size : KeySize} (hsize : size ≠ .noKey)
    (h : key.length = keyBytes size) : KeySlot.Valid { ksize := size, ks := overlay ks (keySchedule key) } := by
  intro _
  have hsched := overlay_keySchedule_take ks hsize h
  have hkey : (overlay ks (keySchedule key)).toList.take (keyBytes size) = key := by
    rw [← Nat.min_eq_left (keyBytes_le_scheduleBytes size), ← List.take_take, hsched, keySchedule_take_key h]
  rw [hsched, hkey]

/-! ### The digest context is that of a message (R19 to R22) -/

@[simp] theorem chunksOf_nil (n fuel : Nat) : chunksOf n fuel [] = [] := by
  cases fuel <;> rfl

/-- Any fuel of at least the length of the string gives the same chunks. -/
theorem chunksOf_fuel {n : Nat} (hn : 0 < n) {fuel fuel' : Nat} {bs : List Byte} (h : bs.length ≤ fuel)
    (h' : bs.length ≤ fuel') : chunksOf n fuel bs = chunksOf n fuel' bs := by
  induction fuel generalizing fuel' bs with
  | zero => simp [List.eq_nil_of_length_eq_zero (Nat.le_zero.mp h)]
  | succ fuel ih =>
    cases bs with
    | nil => simp
    | cons b bs =>
      cases fuel' with
      | zero => simp at h'
      | succ fuel' =>
        simp only [List.length_cons] at h h'
        rw [chunksOf, chunksOf, ih (fuel' := fuel')] <;> simp only [List.length_drop, List.length_cons] <;> omega

@[simp] theorem hashBlocks_nil (h : Vector Word 8) : hashBlocks h [] = h := rfl

/-- The first block of a string is compressed first. -/
theorem hashBlocks_block_append (h : Vector Word 8) {block : List Byte} (rest : List Byte) (hb : block.length = 64) :
    hashBlocks h (block ++ rest) = hashBlocks (compressBlock h block) rest := by
  obtain ⟨b, bs, rfl⟩ : ∃ b bs, block = b :: bs := List.exists_cons_of_length_eq_add_one hb
  have htake : (b :: bs ++ rest).take 64 = b :: bs := List.take_left' hb
  have hdrop : (b :: bs ++ rest).drop 64 = rest := List.drop_left' hb
  have hchunks : chunksOf 64 (b :: bs ++ rest).length (b :: bs ++ rest) =
      (b :: bs) :: chunksOf 64 rest.length rest := by
    rw [List.cons_append] at *
    rw [List.length_cons, chunksOf, htake, hdrop, chunksOf_fuel (by decide) _ le_rfl]
    simp
  rw [hashBlocks, hchunks]
  rfl

/-- The hash of a string is that of its whole blocks, then of the rest. -/
theorem hashBlocks_append (h : Vector Word 8) {q : Nat} {bs : List Byte} (rest : List Byte) (hb : bs.length = 64 * q) :
    hashBlocks h (bs ++ rest) = hashBlocks (hashBlocks h bs) rest := by
  induction q generalizing h bs with
  | zero => simp [List.eq_nil_of_length_eq_zero hb]
  | succ q ih =>
    have hblock : (bs.take 64).length = 64 := by simp; omega
    have hrest : (bs.drop 64).length = 64 * q := by simp; omega
    rw [← List.take_append_drop 64 bs, List.append_assoc, hashBlocks_block_append h _ hblock,
      hashBlocks_block_append h _ hblock, ih _ hrest]

/-- The hash of one block is its compression. -/
theorem hashBlocks_block (h : Vector Word 8) {block : List Byte} (hb : block.length = 64) :
    hashBlocks h block = compressBlock h block := by
  simpa using hashBlocks_block_append h [] hb

/-- Storing a byte right after the first `n` makes it the last of the first `n + 1`. -/
theorem take_setIfInBounds {m n : Nat} (v : Vector Byte m) (x : Byte) (h : n < m) :
    (v.setIfInBounds n x).toList.take (n + 1) = v.toList.take n ++ [x] := by
  rw [Vector.toList_setIfInBounds, List.take_succ_eq_append_getElem (by simpa using h), List.take_set_of_le le_rfl,
    List.getElem_set_self]

theorem holds_startDigest (d : DigestContext) : (startDigest d).Holds [] := by
  refine ⟨rfl, rfl, ?_, rfl, rfl⟩
  simp

/-- The byte that completes a block makes it the last whole block of the message. -/
theorem hashBlocks_complete (h : Vector Word 8) {m : List Byte} (x : Byte) (hm : m.length % 64 = 63) :
    hashBlocks h ((m ++ [x]).take (64 * ((m ++ [x]).length / 64))) =
      compressBlock (hashBlocks h (m.take (64 * (m.length / 64)))) (m.drop (64 * (m.length / 64)) ++ [x]) := by
  have hwhole : (m ++ [x]).length ≤ 64 * ((m ++ [x]).length / 64) := by simp; omega
  have hq : (m.take (64 * (m.length / 64))).length = 64 * (m.length / 64) := by simp; omega
  have hblock : (m.drop (64 * (m.length / 64)) ++ [x]).length = 64 := by simp; omega
  calc hashBlocks h ((m ++ [x]).take (64 * ((m ++ [x]).length / 64)))
      = hashBlocks h (m.take (64 * (m.length / 64)) ++ (m.drop (64 * (m.length / 64)) ++ [x])) := by
        rw [List.take_of_length_le hwhole, ← List.append_assoc, List.take_append_drop]
    _ = compressBlock (hashBlocks h (m.take (64 * (m.length / 64)))) (m.drop (64 * (m.length / 64)) ++ [x]) := by
        rw [hashBlocks_append _ _ hq, hashBlocks_block _ hblock]

/-- `AppendByte(x)` in the context of a message leaves the context of the message with `x` after it (R128). -/
theorem holds_appendByte {d : DigestContext} {m : List Byte} (x : Byte) (h : d.Holds m) :
    (appendByte d x).Holds (m ++ [x]) := by
  obtain ⟨hphase, hh, hbuf, hidx, hbit⟩ := h
  have hlt : d.idx.val < 64 := by omega
  have hlen : (m ++ [x]).length = m.length + 1 := by simp
  have hphase' : (appendByte d x).phase = .accumulating := by rw [appendByte_phase, hphase]
  have hidx' : (appendByte d x).idx.val = (m ++ [x]).length % 64 := by rw [appendByte_idx d x hlt]; omega
  have hbit' : (appendByte d x).bitcnt = BitVec.ofNat 64 (8 * (m ++ [x]).length) := by
    rw [appendByte_bitcnt, hbit, hlen, Nat.mul_succ, BitVec.ofNat_add]
    rfl
  have hstored : (d.buf.setIfInBounds d.idx.val x).toList.take (d.idx.val + 1) =
      m.drop (64 * (m.length / 64)) ++ [x] := by rw [take_setIfInBounds _ _ hlt, hbuf]
  by_cases hfull : d.idx.val + 1 = 64
  · refine ⟨hphase', ?_, ?_, hidx', hbit'⟩
    · rw [hfull, List.take_of_length_le (by simp)] at hstored
      rw [appendByte_h, if_pos hfull, hstored, hh, hashBlocks_complete _ _ (by omega)]
    · have hempty : (appendByte d x).idx.val = 0 := by omega
      rw [hempty, List.take_zero, List.drop_of_length_le (by omega)]
  · have hq : (m ++ [x]).length / 64 = m.length / 64 := by omega
    have hi : (appendByte d x).idx.val = d.idx.val + 1 := by omega
    refine ⟨hphase', ?_, ?_, hidx', hbit'⟩
    · rw [appendByte_h, if_neg hfull, hh, hq, List.take_append_of_le_length (by omega)]
    · rw [hi, appendByte_buf, hstored, hq, List.drop_append_of_le_length (by omega)]

theorem holds_appendBytes {d : DigestContext} {m : List Byte} (xs : List Byte) (h : d.Holds m) :
    (appendBytes d xs).Holds (m ++ xs) := by
  induction xs generalizing d m with
  | nil => simpa using h
  | cons x xs ih => simpa [appendBytes_cons] using ih (holds_appendByte x h)

/-! ### The invariant -/

theorem storeEffect_keeps_valid {k k' : KeySlot} {d d' : DigestContext} {i : Instr} (h : StoreEffect k d i k' d')
    (hk : k.Valid) : k'.Valid := by
  cases h with
  | loadKey hsize hp => exact valid_expandKey k.ks hsize hp
  | _ => exact hk

/-- In phase Accumulating a command leaves the context of a message. -/
theorem storeEffect_keeps_holds {k k' : KeySlot} {d d' : DigestContext} {i : Instr} (h : StoreEffect k d i k' d')
    (hd : d.phase = .accumulating → ∃ m, d.Holds m) : d'.phase = .accumulating → ∃ m, d'.Holds m := by
  intro hphase
  cases h with
  | keep => exact hd hphase
  | loadKey => exact hd hphase
  | start => exact ⟨[], holds_startDigest d⟩
  | add hacc =>
    obtain ⟨m, hm⟩ := hd hacc
    exact ⟨_, holds_appendBytes _ hm⟩
  | finish => simp at hphase

/-- With no key loaded and no digest in progress the invariant asks for nothing. -/
theorem inv_of_noKey_idle {s : State} (hk : s.key.ksize = .noKey) (hd : s.digest.phase = .idle) : s.Inv :=
  ⟨fun h => absurd hk h, fun h => by simp [hd] at h⟩

/-- Settles O55: a legal EXPAND_KEY loads the schedule of a key, an accumulated byte extends the message, and after any other change
the invariant asks for nothing. -/
theorem everyStepKeepsTheInvariant : Obligations.EveryStepKeepsTheInvariant := by
  rintro s t ⟨hk, hd⟩ h
  obtain ⟨i, -, heff⟩ | ⟨hk', hd'⟩ | ⟨_, _, rest, -, rfl⟩ := step_stores h
  · exact ⟨storeEffect_keeps_valid heff hk, storeEffect_keeps_holds heff hd⟩
  · exact ⟨hk' ▸ hk, hd' ▸ hd⟩
  · exact inv_of_noKey_idle rfl rfl

/-- Settles O54: no key is loaded and no digest is in progress. -/
theorem invariantHoldsAtReset : Obligations.InvariantHoldsAtReset := inv_of_noKey_idle rfl rfl

/-- Settles O56: `IDX` is the length of the message modulo 64, and `BITCNT` is 8 times that length modulo 2^64, of which 512 is a
divisor. -/
theorem invariantBoundsIdxAndBitcnt : Obligations.InvariantBoundsIdxAndBitcnt := by
  rintro s ⟨-, hd⟩ hphase
  obtain ⟨m, -, -, -, hidx, hbit⟩ := hd hphase
  have hcount : s.digest.bitcnt.toNat = 8 * m.length % 2 ^ 64 := by rw [hbit, BitVec.toNat_ofNat]
  omega

/-- Settles O10: these are the values `State.reset` gives (R28). -/
theorem resetStateHasNoKeyAndNoDigest : Obligations.ResetStateHasNoKeyAndNoDigest :=
  ⟨rfl, rfl, rfl, reset_output, reset_input⟩

/-! ### Which steps change the key slot, and which `PHASE` -/

/-- Only EXPAND_KEY of a legal key changes the key slot (R16, R96). -/
theorem storeEffect_changes_key {k k' : KeySlot} {d d' : DigestContext} {i : Instr} (h : StoreEffect k d i k' d')
    (hne : k' ≠ k) : ∃ p, (p.length = 16 ∨ p.length = 24 ∨ p.length = 32) ∧ i = .expandKey p := by
  cases h with
  | loadKey hsize hp => exact ⟨_, hp ▸ keyBytes_cases hsize, rfl⟩
  | _ => exact absurd rfl hne

/-- Only SHA_START, and SHA_FINISH in phase Accumulating, change `PHASE` (R130). -/
theorem storeEffect_changes_phase {k k' : KeySlot} {d d' : DigestContext} {i : Instr} (h : StoreEffect k d i k' d')
    (hne : d'.phase ≠ d.phase) :
    (i = .shaStart [] ∧ d'.phase = .accumulating) ∨
    (i = .shaFinish [] ∧ d.phase = .accumulating ∧ d'.phase = .finalized) := by
  cases h with
  | keep => exact absurd rfl hne
  | loadKey => exact absurd rfl hne
  | start => exact .inl ⟨rfl, rfl⟩
  | add => exact absurd (appendBytes_phase d _) hne
  | finish hd => exact .inr ⟨rfl, hd, finishDigest_phase d⟩

/-- Settles O50: of what a step can do, only a legal EXPAND_KEY and the reset event write the key slot. -/
theorem keySlotChangesOnlyByExpandKeyOrReset : Obligations.KeySlotChangesOnlyByExpandKeyOrReset := by
  intro s t h hne
  obtain ⟨i, hin, heff⟩ | ⟨hk, -⟩ | ⟨bs, time, rest, hin, rfl⟩ := step_stores h
  · obtain ⟨p, hp, rfl⟩ := storeEffect_changes_key heff hne
    exact .inl ⟨p, t.input, hp, hin, rfl⟩
  · exact absurd hk hne
  · exact .inr ⟨bs, time, rest, hin, rfl, rfl⟩

/-- Settles O51: of what a step can do, only SHA_START, SHA_FINISH in phase Accumulating and the reset event write `PHASE`. -/
theorem phaseChangesOnlyByStartFinishOrReset : Obligations.PhaseChangesOnlyByStartFinishOrReset := by
  intro s t h hne
  obtain ⟨i, hin, heff⟩ | ⟨-, hd⟩ | ⟨bs, time, rest, hin, rfl⟩ := step_stores h
  · obtain ⟨rfl, ht⟩ | ⟨rfl, hs, ht⟩ := storeEffect_changes_phase heff hne
    · exact .inl ⟨t.input, hin, ht⟩
    · exact .inr (.inl ⟨t.input, hin, hs, ht⟩)
  · exact absurd (congrArg DigestContext.phase hd) hne
  · exact .inr (.inr ⟨bs, time, rest, hin, rfl, rfl⟩)

end Sys2Proof.Machine
end

section
/-! PROOFS. Family 10_state: what no command can observe (R15, R20, R27). Each operation gives the same answer on stores that
agree, and leaves stores that agree. -/

namespace Sys2Proof.Machine

/-! ### The cipher reads the schedule only -/

theorem byteAt_eq_of_take_eq {bs bs' : List Byte} {n j : Nat} (h : bs.take n = bs'.take n) (hj : j < n) :
    byteAt bs j = byteAt bs' j := by
  rw [byteAt, byteAt, List.getD_eq_getElem?_getD, List.getD_eq_getElem?_getD, ← List.getElem?_take_of_lt hj, h,
    List.getElem?_take_of_lt hj]

/-- The round keys 0 to `R` are the first `16·(R+1)` bytes of `KS` (R108). -/
theorem addRoundKey_of_take_eq {ks ks' : Vector Byte 240} {R k : Nat}
    (h : ks.toList.take (16 * (R + 1)) = ks'.toList.take (16 * (R + 1))) (hk : k ≤ R) (st : Matrix4) :
    addRoundKey ks k st = addRoundKey ks' k st := by
  apply matrix_ext
  intro r c
  rw [cell_addRoundKey, cell_addRoundKey, byteAt_eq_of_take_eq h (by omega)]

theorem cipher_of_take_eq {ks ks' : Vector Byte 240} {R : Nat}
    (h : ks.toList.take (16 * (R + 1)) = ks'.toList.take (16 * (R + 1))) (st : Matrix4) :
    cipher ks R st = cipher ks' R st := by
  have hround : ∀ st, ∀ k ∈ List.range' 1 (R - 1), cipherRound ks st k = cipherRound ks' st k := by
    intro st k hk
    have hR : k ≤ R := by rw [List.mem_range'_1] at hk; omega
    rw [cipherRound, cipherRound, addRoundKey_of_take_eq h hR]
  rw [cipher, cipher, List.foldl_ext _ _ _ hround, addRoundKey_of_take_eq h le_rfl,
    addRoundKey_of_take_eq h (Nat.zero_le R)]

theorem invCipher_of_take_eq {ks ks' : Vector Byte 240} {R : Nat}
    (h : ks.toList.take (16 * (R + 1)) = ks'.toList.take (16 * (R + 1))) (st : Matrix4) :
    invCipher ks R st = invCipher ks' R st := by
  have hround : ∀ st, ∀ k ∈ (List.range' 1 (R - 1)).reverse, invCipherRound ks st k = invCipherRound ks' st k := by
    intro st k hk
    have hR : k ≤ R := by rw [List.mem_reverse, List.mem_range'_1] at hk; omega
    rw [invCipherRound, invCipherRound, addRoundKey_of_take_eq h hR]
  rw [invCipher, invCipher, List.foldl_ext _ _ _ hround, addRoundKey_of_take_eq h le_rfl,
    addRoundKey_of_take_eq h (Nat.zero_le R)]

theorem encryptWith_of_agree {k k' : KeySlot} (h : k.Agree k') (hk : k.ksize ≠ .noKey) (b : Vector Byte 16) :
    encryptWith k b = encryptWith k' b := by
  obtain ⟨hsize, hks⟩ := h
  rw [encryptWith, encryptWith, ← hsize, cipher_of_take_eq (hks hk)]

theorem decryptWith_of_agree {k k' : KeySlot} (h : k.Agree k') (hk : k.ksize ≠ .noKey) (b : Vector Byte 16) :
    decryptWith k b = decryptWith k' b := by
  obtain ⟨hsize, hks⟩ := h
  rw [decryptWith, decryptWith, ← hsize, invCipher_of_take_eq (hks hk)]

/-! ### The digest engine reads the message only -/

theorem agree_startDigest {d d' : DigestContext} : (startDigest d).Agree (startDigest d') :=
  ⟨rfl, fun _ => ⟨rfl, rfl, rfl, by simp⟩⟩

/-- Stores that agree below `n` still agree once the same byte is stored at `n`, up to and including it. -/
theorem take_setIfInBounds_of_take_eq {m n : Nat} {v v' : Vector Byte m} (x : Byte)
    (h : v.toList.take n = v'.toList.take n) :
    (v.setIfInBounds n x).toList.take (n + 1) = (v'.setIfInBounds n x).toList.take (n + 1) := by
  by_cases hn : n < m
  · rw [take_setIfInBounds _ _ hn, take_setIfInBounds _ _ hn, h]
  · have hv : v.toList.take n = v.toList := List.take_of_length_le (by simp; omega)
    have hv' : v'.toList.take n = v'.toList := List.take_of_length_le (by simp; omega)
    rw [Vector.toList_setIfInBounds, Vector.toList_setIfInBounds, ← hv, ← hv', h]

theorem zeroFrom_of_take_eq {n : Nat} {buf buf' : Vector Byte 64} (h : buf.toList.take n = buf'.toList.take n) :
    zeroFrom n buf = zeroFrom n buf' := by
  apply Vector.ext
  intro j hj
  simp only [zeroFrom, Vector.getElem_ofFn]
  split
  · rfl
  · simpa [byteAt, hj] using byteAt_eq_of_take_eq h (j := j) (by omega)

/-- The fill index after a byte is a function of the one before it. -/
theorem appendByte_idx_eq (d : DigestContext) (x : Byte) :
    (appendByte d x).idx = if d.idx.val + 1 = 64 then 0 else Fin.ofNat 65 (d.idx.val + 1) := by
  unfold appendByte; split <;> rfl

theorem appendByte_idx_le (d : DigestContext) (x : Byte) : (appendByte d x).idx.val ≤ d.idx.val + 1 := by
  rw [appendByte_idx_eq]
  split
  · exact Nat.zero_le _
  · exact Nat.mod_le _ _

/-- `AppendByte` keeps agreement: the byte it stores is the last valid one, and it compresses only a buffer that is valid as a
whole (R128). -/
theorem agree_appendByte {d d' : DigestContext} (x : Byte) (hd : d.phase = .accumulating) (h : d.Agree d') :
    (appendByte d x).Agree (appendByte d' x) := by
  obtain ⟨hphase, hstores⟩ := h
  obtain ⟨hh, hidx, hbit, hbuf⟩ := hstores hd
  have hstored := take_setIfInBounds_of_take_eq x hbuf
  refine ⟨by rw [appendByte_phase, appendByte_phase, hphase], fun _ => ⟨?_, ?_, ?_, ?_⟩⟩
  · rw [appendByte_h, appendByte_h, ← hidx, ← hh]
    split
    next hfull =>
      rw [hfull, List.take_of_length_le (by simp), List.take_of_length_le (by simp)] at hstored
      rw [hstored]
    next => rfl
  · rw [appendByte_idx_eq, appendByte_idx_eq, hidx]
  · rw [appendByte_bitcnt, appendByte_bitcnt, hbit]
  · have hle := appendByte_idx_le d x
    rw [appendByte_buf, appendByte_buf, ← hidx, ← Nat.min_eq_left hle, ← List.take_take, hstored, List.take_take]

theorem agree_appendBytes {d d' : DigestContext} (xs : List Byte) (hd : d.phase = .accumulating) (h : d.Agree d') :
    (appendBytes d xs).Agree (appendBytes d' xs) := by
  induction xs generalizing d d' with
  | nil => exact h
  | cons x xs ih => exact ih ((appendByte_phase d x).trans hd) (agree_appendByte x hd h)

/-- The padding overwrites every byte of `BUF` that is not valid (R133). -/
theorem padMessage_of_agree {d d' : DigestContext} (hd : d.phase = .accumulating) (h : d.Agree d') :
    padMessage d = padMessage d' := by
  obtain ⟨hphase, hstores⟩ := h
  obtain ⟨hh, hidx, hbit, hbuf⟩ := hstores hd
  have hpadded := zeroFrom_of_take_eq (take_setIfInBounds_of_take_eq 0x80 hbuf)
  rw [padMessage, padMessage, ← hphase, ← hh, ← hidx, ← hbit, hpadded]

theorem finishDigest_of_agree {d d' : DigestContext} (hd : d.phase = .accumulating) (h : d.Agree d') :
    finishDigest d = finishDigest d' := by
  rw [finishDigest, finishDigest, padMessage_of_agree hd h]

/-! ### Commands and steps -/

/-- Two runs that answer next states which no command can tell apart. -/
def AnswerAlike (x x' : Result) : Prop := ∃ t t', x = .next t ∧ x' = .next t' ∧ t.Agree t'

theorem raise_alike {s s' : State} (st : Status) (h : s.Agree s') : AnswerAlike (raise st s) (raise st s') := by
  obtain ⟨hk, hd, hin, hout⟩ := h
  exact ⟨_, _, rfl, rfl, hk, hd, hin, by rw [emit_output, emit_output, hout]⟩

theorem respondOk_alike {s s' : State} {r r' : List Byte} (h : s.Agree s') (hr : r = r') :
    AnswerAlike (respondOk r s) (respondOk r' s') := by
  obtain ⟨hk, hd, hin, hout⟩ := h
  exact ⟨_, _, rfl, rfl, hk, hd, hin, by rw [emit_output, emit_output, hout, hr]⟩

theorem execGfMultiply_alike (p : List Byte) {s s' : State} (h : s.Agree s') :
    AnswerAlike (execGfMultiply p s) (execGfMultiply p s') := by
  unfold execGfMultiply
  split
  · exact raise_alike _ h
  · exact respondOk_alike h rfl

theorem execSboxFwd_alike (p : List Byte) {s s' : State} (h : s.Agree s') :
    AnswerAlike (execSboxFwd p s) (execSboxFwd p s') := by
  unfold execSboxFwd
  split
  · exact raise_alike _ h
  · exact respondOk_alike h rfl

theorem execSboxInv_alike (p : List Byte) {s s' : State} (h : s.Agree s') :
    AnswerAlike (execSboxInv p s) (execSboxInv p s') := by
  unfold execSboxInv
  split
  · exact raise_alike _ h
  · exact respondOk_alike h rfl

theorem execExpandKey_alike (p : List Byte) {s s' : State} (h : s.Agree s') :
    AnswerAlike (execExpandKey p s) (execExpandKey p s') := by
  have ⟨_, hd, hin, hout⟩ := h
  cases hp : keyOperand p with
  | none => simpa only [execExpandKey, hp] using raise_alike .invalidKeySize h
  | some size =>
    obtain ⟨hsize, hlen⟩ := keyOperand_eq_some.mp hp
    have hks : (overlay s.key.ks (keySchedule p)).toList.take (scheduleBytes size) =
        (overlay s'.key.ks (keySchedule p)).toList.take (scheduleBytes size) := by
      rw [overlay_keySchedule_take _ hsize hlen, overlay_keySchedule_take _ hsize hlen]
    simp only [execExpandKey, hp]
    exact respondOk_alike ⟨⟨rfl, fun _ => hks⟩, hd, hin, hout⟩ hks

/-- ENCRYPT_BLOCK and DECRYPT_BLOCK, over the function they answer. -/
theorem execCipher_alike {f : KeySlot → Vector Byte 16 → Vector Byte 16} (p : List Byte) {s s' : State} (h : s.Agree s')
    (hf : s.key.ksize ≠ .noKey → ∀ b, f s.key b = f s'.key b) : AnswerAlike (execCipher f p s) (execCipher f p s') := by
  have ⟨⟨hsize, _⟩, _⟩ := h
  unfold execCipher
  rw [← hsize]
  split
  · exact raise_alike _ h
  · split
    · exact raise_alike _ h
    · next hk => exact respondOk_alike h (congrArg Vector.toList (hf hk _))

theorem execShaStart_alike (p : List Byte) {s s' : State} (h : s.Agree s') :
    AnswerAlike (execShaStart p s) (execShaStart p s') := by
  have ⟨hk, _, hin, hout⟩ := h
  unfold execShaStart
  split
  · exact respondOk_alike ⟨hk, agree_startDigest, hin, hout⟩ rfl
  · exact raise_alike _ h

theorem execShaAdd_alike (p : List Byte) {s s' : State} (h : s.Agree s') :
    AnswerAlike (execShaAdd p s) (execShaAdd p s') := by
  have ⟨hk, hd, hin, hout⟩ := h
  have ⟨hsame, _⟩ := hd
  unfold execShaAdd
  rw [← hsame]
  split
  next hphase => exact respondOk_alike ⟨hk, agree_appendBytes p hphase hd, hin, hout⟩ rfl
  all_goals exact raise_alike _ h

theorem execShaFinish_alike (p : List Byte) {s s' : State} (h : s.Agree s') :
    AnswerAlike (execShaFinish p s) (execShaFinish p s') := by
  have ⟨hk, hd, hin, hout⟩ := h
  have ⟨hsame, _⟩ := hd
  unfold execShaFinish
  rw [← hsame]
  split
  · split
    next hphase =>
      rw [← finishDigest_of_agree hphase hd]
      exact respondOk_alike ⟨hk, ⟨rfl, fun _ => ⟨rfl, rfl, rfl, rfl⟩⟩, hin, hout⟩ rfl
    all_goals exact raise_alike _ h
  · exact raise_alike _ h

/-- Every command answers alike on states that agree (R27): what it reads is valid content, and agrees. -/
theorem exec_alike (i : Instr) {s s' : State} (h : s.Agree s') : AnswerAlike (exec i s) (exec i s') := by
  have ⟨hk, _⟩ := h
  cases i with
  | gfMultiply p => exact execGfMultiply_alike p h
  | sboxFwd p => exact execSboxFwd_alike p h
  | sboxInv p => exact execSboxInv_alike p h
  | expandKey p => exact execExpandKey_alike p h
  | encryptBlock p => exact execCipher_alike (f := encryptWith) p h (encryptWith_of_agree hk)
  | decryptBlock p => exact execCipher_alike (f := decryptWith) p h (decryptWith_of_agree hk)
  | shaStart p => exact execShaStart_alike p h
  | shaAdd p => exact execShaAdd_alike p h
  | shaFinish p => exact execShaFinish_alike p h

/-- A reset leaves nothing to tell states apart, whatever they held before it (R161). -/
theorem resetEvent_agree (rest : List HostEvent) (s s' : State) : (resetEvent rest s).Agree (resetEvent rest s') :=
  ⟨⟨by simp, by simp⟩, ⟨by simp, by simp⟩, rfl, rfl⟩

theorem perform_alike (n : Nat) {meaning : State → Result} {s s' : State} (h : s.Agree s')
    (hm : ∀ {u u' : State}, u.Agree u' → AnswerAlike (meaning u) (meaning u')) :
    AnswerAlike (perform n meaning s) (perform n meaning s') := by
  obtain ⟨hk, hd, hin, hout⟩ := h
  unfold perform
  rw [← hin]
  split
  · exact ⟨_, _, rfl, rfl, resetEvent_agree _ s s'⟩
  · exact hm ⟨hk, hd, congrArg (List.drop n) hin, hout⟩

theorem fetchBytes_of_agree {s s' : State} (h : s.Agree s') : fetchBytes s = fetchBytes s' := by
  obtain ⟨-, -, hin, -⟩ := h
  rw [fetchBytes, fetchBytes, hin]

theorem awaitHost_alike {s s' : State} (h : s.Agree s') : AnswerAlike (awaitHost s) (awaitHost s') := by
  have ⟨_, _, hin, _⟩ := h
  unfold awaitHost
  rw [← fetchBytes_of_agree h, ← hin]
  split
  · exact ⟨_, _, rfl, rfl, resetEvent_agree _ s s'⟩
  · exact ⟨_, _, rfl, rfl, h⟩

/-- The packet at the head of the stream and the resets in it are the same, so both runs do the same thing. -/
theorem step_alike {s s' : State} (h : s.Agree s') : AnswerAlike (step s) (step s') := by
  unfold step
  rw [← fetchBytes_of_agree h]
  split
  · exact perform_alike _ h (exec_alike _)
  · exact perform_alike _ h (raise_alike .illegalCommand)
  · exact awaitHost_alike h

/-- Settles O57: the two states have the same packet at the head of the stream, and every command answers alike on states that
agree. -/
theorem unspecifiedContentIsNeverObserved : Obligations.UnspecifiedContentIsNeverObserved := by
  intro s s' t t' h ht ht'
  obtain ⟨u, u', hu, hu', hagree⟩ := step_alike h
  cases ht.symm.trans hu
  cases ht'.symm.trans hu'
  exact hagree

end Sys2Proof.Machine
end

section
/-! PROOFS. Family 20_memory: a step on a whole packet at the head of the command stream (R41, R57), which stores a command may
write (R38), and the responses to a stream of packets (R47). -/

namespace Sys2Proof.Machine

/-! ### A step on the packet at the head of the stream -/

/-- What the block does with a whole packet once it is taken: the command its opcode selects, or the answer to an illegal one. -/
def packetMeaning (op : Byte) (p : List Byte) : State → Result :=
  match instrOf op p with
  | some i => exec i
  | none => answerIllegalOpcode

theorem packetMeaning_opcode (i : Instr) : packetMeaning i.opcode i.payload = exec i := by
  rw [packetMeaning, instrOf_opcode]

theorem packet_length (op : Byte) (p : List Byte) : (packet op p).length = 2 + p.length := by
  simp [packet]; omega

theorem input_drop_packet {s : State} {op : Byte} {p : List Byte} {rest : List HostEvent}
    (hin : s.input = (packet op p).map .byte ++ rest) : s.input.drop (2 + p.length) = rest := by
  rw [hin, ← packet_length op p, ← List.length_map (f := HostEvent.byte), List.drop_left]

/-- Whatever follows a whole packet, a step performs that packet (R57). -/
theorem step_packet {s : State} {op : Byte} {p : List Byte} {rest : List HostEvent} (hp : p.length ≤ 255)
    (hin : s.input = (packet op p).map .byte ++ rest) : step s = perform (2 + p.length) (packetMeaning op p) s := by
  have hd := decode_packet op p (leadingBytes rest) hp
  rw [← leadingBytes_map_append, ← hin, ← fetchBytes] at hd
  cases hi : instrOf op p <;> simp only [step, hd, packetMeaning, hi]

/-- With no reset arriving meanwhile, the packet is taken and has its meaning. -/
theorem step_packet_taken {s : State} {op : Byte} {p : List Byte} {rest : List HostEvent} (hp : p.length ≤ 255)
    (hin : s.input = (packet op p).map .byte ++ rest) (hrest : ∀ es, rest ≠ .reset .duringCommand :: es) :
    step s = packetMeaning op p { s with input := rest } := by
  have hdrop := input_drop_packet hin
  obtain ⟨-, h⟩ | ⟨es, hes, -⟩ := perform_cases (2 + p.length) (packetMeaning op p) s
  · rw [step_packet hp hin, h, consume, hdrop]
  · exact absurd (hdrop.symm.trans hes) (hrest es)

/-- A reset that arrives meanwhile abandons the packet (R162). -/
theorem step_packet_abandoned {s : State} {op : Byte} {p : List Byte} {es : List HostEvent} (hp : p.length ≤ 255)
    (hin : s.input = (packet op p).map .byte ++ .reset .duringCommand :: es) : step s = .next (resetEvent es s) := by
  have hdrop := input_drop_packet hin
  obtain ⟨h, -⟩ | ⟨es', hes, h⟩ := perform_cases (2 + p.length) (packetMeaning op p) s
  · exact absurd hdrop (h es)
  · cases hdrop.symm.trans hes
    exact (step_packet hp hin).trans h

/-- Settles O6: a command's bytes are a whole packet, whose opcode selects that command. -/
theorem stepRunsTheDecodedCommand : Obligations.StepRunsTheDecodedCommand := by
  intro s i rest hwf hin
  constructor
  · intro hrest
    rw [step_packet_taken hwf hin hrest, packetMeaning_opcode]
  · rintro es rfl
    exact step_packet_abandoned hwf hin

/-! ### Frames (R38) -/

/-- EXPAND_KEY is the one command that may write the key slot (R10, R38). -/
def WritesKey : Instr → Prop
  | .expandKey _ => True
  | _ => False

/-- The three SHA commands are those that may write the digest context (R10, R38). -/
def WritesDigest : Instr → Prop
  | .shaStart _ | .shaAdd _ | .shaFinish _ => True
  | _ => False

theorem storeEffect_frame {k k' : KeySlot} {d d' : DigestContext} {i : Instr} (h : StoreEffect k d i k' d') :
    (¬ WritesKey i → k' = k) ∧ (¬ WritesDigest i → d' = d) := by
  cases h with
  | keep => exact ⟨fun _ => rfl, fun _ => rfl⟩
  | loadKey => exact ⟨fun hi => absurd trivial hi, fun _ => rfl⟩
  | start => exact ⟨fun _ => rfl, fun hi => absurd trivial hi⟩
  | add => exact ⟨fun _ => rfl, fun hi => absurd trivial hi⟩
  | finish => exact ⟨fun _ => rfl, fun hi => absurd trivial hi⟩

/-- A command leaves the command stream and the reset counter, and the stores it may not write. -/
theorem exec_frame {i : Instr} {s t : State} (h : exec i s = .next t) :
    t = { s with key := t.key, digest := t.digest, output := t.output } ∧
    (¬ WritesKey i → t.key = s.key) ∧ (¬ WritesDigest i → t.digest = s.digest) := by
  obtain ⟨k, d, r, he, heff⟩ := exec_storeEffect i s
  cases h.symm.trans he
  exact ⟨rfl, storeEffect_frame heff⟩

theorem exec_writes_no_store {i : Instr} {s t : State} (h : exec i s = .next t) (hk : ¬ WritesKey i) (hd : ¬ WritesDigest i) :
    t = { s with output := t.output } := by
  obtain ⟨ht, hkey, hdigest⟩ := exec_frame h
  rwa [hkey hk, hdigest hd] at ht

theorem exec_writes_key_only {i : Instr} {s t : State} (h : exec i s = .next t) (hd : ¬ WritesDigest i) :
    t = { s with key := t.key, output := t.output } := by
  obtain ⟨ht, -, hdigest⟩ := exec_frame h
  rwa [hdigest hd] at ht

theorem exec_writes_digest_only {i : Instr} {s t : State} (h : exec i s = .next t) (hk : ¬ WritesKey i) :
    t = { s with digest := t.digest, output := t.output } := by
  obtain ⟨ht, hkey, -⟩ := exec_frame h
  rwa [hkey hk] at ht

/-- Settles O49: of the two stores, each command keeps those it is not a writer of. -/
theorem commandsWriteOnlyTheirStores : Obligations.CommandsWriteOnlyTheirStores := by
  intro s t p
  refine ⟨?_, ?_, ?_⟩
  · rintro (h | h | h | h | h) <;> exact exec_writes_no_store h id id
  · exact fun h => exec_writes_key_only h id
  · rintro (h | h | h) <;> exact exec_writes_digest_only h id

/-! ### One response for each packet (R47, R51) -/

/-- The outcome `x` from `s` adds one response to the response stream, of at most 240 result bytes (R51) and not of the reserved
status (R155), and takes nothing more from the command stream. -/
def AnswersOnce (s : State) (x : Result) : Prop :=
  ∃ t st r, x = .next t ∧ t.input = s.input ∧ t.output = s.output ++ responsePacket st r ∧
    st ≠ .allocationFailure ∧ r.length ≤ 240

theorem raise_answersOnce {st : Status} (s : State) (hst : st ≠ .allocationFailure) : AnswersOnce s (raise st s) :=
  ⟨_, st, [], rfl, rfl, rfl, hst, by simp⟩

theorem respondOk_answersOnce {r : List Byte} (s : State) (k : KeySlot) (d : DigestContext) (hr : r.length ≤ 240) :
    AnswersOnce s (respondOk r { s with key := k, digest := d }) :=
  ⟨_, .ok, r, rfl, rfl, rfl, by simp, hr⟩

theorem exec_answersOnce (i : Instr) (s : State) : AnswersOnce s (exec i s) := by
  cases i with
  | gfMultiply p =>
    obtain ⟨-, h⟩ | ⟨a, b, -, h⟩ := execGfMultiply_cases p s <;> rw [exec, h]
    · exact raise_answersOnce s (by decide)
    · exact respondOk_answersOnce s _ _ (by simp)
  | sboxFwd p =>
    obtain ⟨-, h⟩ | ⟨x, -, h⟩ := execSboxFwd_cases p s <;> rw [exec, h]
    · exact raise_answersOnce s (by decide)
    · exact respondOk_answersOnce s _ _ (by simp)
  | sboxInv p =>
    obtain ⟨-, h⟩ | ⟨x, -, h⟩ := execSboxInv_cases p s <;> rw [exec, h]
    · exact raise_answersOnce s (by decide)
    · exact respondOk_answersOnce s _ _ (by simp)
  | expandKey p =>
    obtain ⟨-, h⟩ | ⟨size, -, -, h⟩ := execExpandKey_cases p s <;> rw [exec, h]
    · exact raise_answersOnce s (by decide)
    · exact respondOk_answersOnce s _ _ (by simp)
  | encryptBlock p =>
    obtain ⟨-, h⟩ | ⟨-, -, h⟩ | ⟨b, -, -, h⟩ := execEncryptBlock_cases p s <;> rw [exec, h]
    · exact raise_answersOnce s (by decide)
    · exact raise_answersOnce s (by decide)
    · exact respondOk_answersOnce s _ _ (by simp)
  | decryptBlock p =>
    obtain ⟨-, h⟩ | ⟨-, -, h⟩ | ⟨b, -, -, h⟩ := execDecryptBlock_cases p s <;> rw [exec, h]
    · exact raise_answersOnce s (by decide)
    · exact raise_answersOnce s (by decide)
    · exact respondOk_answersOnce s _ _ (by simp)
  | shaStart p =>
    obtain ⟨-, h⟩ | ⟨-, h⟩ := execShaStart_cases p s <;> rw [exec, h]
    · exact raise_answersOnce s (by decide)
    · exact respondOk_answersOnce s _ _ (by simp)
  | shaAdd p =>
    obtain ⟨-, h⟩ | ⟨-, h⟩ := execShaAdd_cases p s <;> rw [exec, h]
    · exact raise_answersOnce s (by decide)
    · exact respondOk_answersOnce s _ _ (by simp)
  | shaFinish p =>
    obtain ⟨-, h⟩ | ⟨-, -, h⟩ | ⟨-, -, h⟩ := execShaFinish_cases p s <;> rw [exec, h]
    · exact raise_answersOnce s (by decide)
    · exact raise_answersOnce s (by decide)
    · exact respondOk_answersOnce s _ _ (by simp [digestBytes])

theorem packetMeaning_answersOnce (op : Byte) (p : List Byte) (s : State) : AnswersOnce s (packetMeaning op p s) := by
  cases hi : instrOf op p <;> rw [packetMeaning, hi]
  case some i => exact exec_answersOnce i s
  case none => exact raise_answersOnce s (by decide)

/-- The command stream of a list of packets, each an opcode and a payload, the first ahead. -/
def packetStream (ps : List (Byte × List Byte)) : List HostEvent := (ps.flatMap fun q => packet q.1 q.2).map .byte

theorem packetStream_cons (q : Byte × List Byte) (ps : List (Byte × List Byte)) :
    packetStream (q :: ps) = (packet q.1 q.2).map .byte ++ packetStream ps := by
  simp [packetStream]

theorem packetStream_no_reset (ps : List (Byte × List Byte)) (es : List HostEvent) :
    packetStream ps ≠ .reset .duringCommand :: es := by
  intro h
  have hmem : HostEvent.reset .duringCommand ∈ packetStream ps := h ▸ List.mem_cons_self
  simp [packetStream] at hmem

/-- A step takes the first packet of a stream of packets, whole, and answers it once. -/
theorem step_packetStream_cons {q : Byte × List Byte} {ps : List (Byte × List Byte)} {s : State} (hq : q.2.length ≤ 255)
    (hin : s.input = packetStream (q :: ps)) :
    ∃ v st r, step s = .next v ∧ v.input = packetStream ps ∧ v.output = s.output ++ responsePacket st r ∧ r.length ≤ 240 := by
  rw [packetStream_cons] at hin
  obtain ⟨v, st, r, hv, hvin, hout, -, hr⟩ := packetMeaning_answersOnce q.1 q.2 { s with input := packetStream ps }
  exact ⟨v, st, r, (step_packet_taken hq hin (packetStream_no_reset ps)).trans hv, hvin, hout, hr⟩

theorem core_run_succ {s v : State} (h : step s = .next v) (k : Nat) : core.run (k + 1) s = core.run k v := by
  have hcore : core.step s = .next v := h
  simp only [Host.Core.run, hcore]

/-- Settles O53, by induction on the packets: a step takes and answers the first one, and the others are a stream of packets at the
state it leaves. -/
theorem streamOfPacketsYieldsAsManyResponses : Obligations.StreamOfPacketsYieldsAsManyResponses := by
  intro ps
  induction ps with
  | nil =>
    intro s _ hin
    exact ⟨s, [], rfl, hin, rfl, by simp, by simp⟩
  | cons q ps ih =>
    intro s hlen hin
    obtain ⟨hq, hps⟩ := List.forall_mem_cons.mp hlen
    obtain ⟨v, st, r, hstep, hvin, hvout, hr⟩ := step_packetStream_cons hq hin
    obtain ⟨t, rs, hrun, htin, hrs, htout, hresp⟩ := ih v hps hvin
    refine ⟨t, (st, r) :: rs, (core_run_succ hstep _).trans hrun, htin, congrArg (· + 1) hrs, ?_, ?_⟩
    · rw [htout, hvout, List.flatMap_cons, List.append_assoc]
    · rintro (_ | k) r' hr'
      · cases hr'
        exact ⟨hr, s, v, rfl, hin, hstep, hvin, hvout⟩
      · obtain ⟨hr240, u, w, hu, hrest⟩ := hresp k r' hr'
        exact ⟨hr240, u, w, (core_run_succ hstep k).trans hu, hrest⟩

end Sys2Proof.Machine
end

section
/-! PROOFS. Family 30_encoding: the decoder and the encoder (R50, R54, R59), and what a step does with the packet at the head of the
stream: takes it whole (R57), answers an illegal opcode (R55), waits for the rest of a short one (R58), performs an offered one
(R52). -/

namespace Sys2Proof.Machine

/-! ### The decoder and the encoder -/

/-- Settles O1: the decoder evaluated on each packet. -/
theorem writtenOutPacketsDecode : Obligations.WrittenOutPacketsDecode := by
  unfold Obligations.WrittenOutPacketsDecode
  decide

/-- Settles O2: the packet carries the command's opcode, from which the opcode map gives the command back. -/
theorem decodeOfEncodeIsTheCommand : Obligations.DecodeOfEncodeIsTheCommand := by
  intro i rest hwf
  rw [encode, decode_packet i.opcode i.payload rest hwf, instrOf_opcode]

/-- Settles O3: where the decoder answers a command it has read a whole packet, whose opcode and payload are the command's. -/
theorem encodeOfDecodeIsThePacket : Obligations.EncodeOfDecodeIsThePacket := by
  intro bs i n h
  obtain ⟨op, p, hp, hlen, htake, hd⟩ | hd := decode_cases bs <;> rw [hd] at h
  · cases hi : instrOf op p with
    | none => simp [hi] at h
    | some j =>
      obtain ⟨rfl, rfl⟩ : j = i ∧ 2 + p.length = n := by simpa [hi] using h
      obtain ⟨rfl, rfl⟩ := instrOf_some hi
      exact ⟨hp, rfl, hlen, htake⟩
  · cases h

/-! ### A whole packet is taken and answered (R55, R57) -/

theorem packet_eq {op len : Byte} {p : List Byte} (hp : p.length = len.toNat) : packet op p = op :: len :: p := by
  rw [packet, hp, BitVec.ofNat_toNat, BitVec.setWidth_eq]

/-- Settles O4: the packet has one response, unless a reset arrives meanwhile. -/
theorem everyPacketIsTakenWholeAndAnsweredOnce : Obligations.EveryPacketIsTakenWholeAndAnsweredOnce := by
  intro s op len p rest hp hin
  have hp255 : p.length ≤ 255 := by omega
  rw [← packet_eq hp] at hin
  constructor
  · intro hrest
    obtain ⟨t, st, r, ht, htin, htout, -, hr⟩ := packetMeaning_answersOnce op p { s with input := rest }
    exact ⟨t, st, r, (step_packet_taken hp255 hin hrest).trans ht, htin, hr, htout⟩
  · rintro es rfl
    exact ⟨_, step_packet_abandoned hp255 hin, rfl, rfl⟩

/-- Settles O5: the opcode map has no command for such an opcode, and all that the packet then has is its answer. -/
theorem illegalOpcodeIsAnsweredIllegalCommand : Obligations.IllegalOpcodeIsAnsweredIllegalCommand := by
  intro s op p rest hop hp hin hrest
  rw [step_packet_taken hp hin hrest, packetMeaning, instrOf_eq_none.mpr hop]
  exact raise_spec .illegalCommand { s with input := rest }

/-- Settles O11: a command answers a next state, and so does everything else a step can do. -/
theorem everyStepAnswersANextState : Obligations.EveryStepAnswersANextState := by
  intro s
  obtain ⟨i, rest, -, -, -, hs⟩ | ⟨_, _, _, -, -, -, -, hs⟩ | ⟨-, hs⟩ | ⟨_, _, -, hs⟩ := step_cases s
  · obtain ⟨k, d, r, he, -⟩ := exec_storeEffect i { s with input := rest }
    exact ⟨_, hs.trans he⟩
  · exact ⟨_, hs⟩
  · exact ⟨_, hs⟩
  · exact ⟨_, hs⟩

/-! ### A packet that stops short (R58) -/

/-- Fewer than `2 + LEN` bytes are no command. -/
theorem decode_of_short {bs : List Byte}
    (h : bs.length < 2 ∨ ∃ op len p, bs = op :: len :: p ∧ p.length < len.toNat) : decode bs = .short := by
  obtain h | ⟨op, len, p, rfl, hp⟩ := h
  · match bs with
    | [] => rfl
    | [_] => rfl
    | _ :: _ :: _ => simp at h
  · rw [decode, if_pos hp]

/-- With no whole packet at the head of the stream a step waits for the host. -/
theorem step_of_short {s : State} (h : decode (fetchBytes s) = .short) : step s = awaitHost s := by
  simp only [step, h]

/-- With nothing but bytes on the stream, waiting keeps the state. -/
theorem awaitHost_of_bytes {s : State} {bs : List Byte} (hin : s.input = bs.map .byte) : awaitHost s = .next s := by
  obtain ⟨-, h⟩ | ⟨time, rest, hreset, -⟩ := awaitHost_cases s
  · exact h
  · have hmem : HostEvent.reset time ∈ bs.map HostEvent.byte := by simp [← hin, hreset]
    simp at hmem

/-- Settles O8: the decoder reads no command, and no reset stands on the stream. -/
theorem shortPacketWaits : Obligations.ShortPacketWaits := by
  intro s bs hin hshort
  have hfetch : fetchBytes s = bs := by rw [fetchBytes, hin, leadingBytes_map]
  rw [step_of_short (hfetch ▸ decode_of_short hshort), awaitHost_of_bytes hin]

/-! ### The command of an opcode-table word (R52) -/

theorem byteAt_map_range (f : Nat → Byte) {n j : Nat} (h : j < n) : byteAt ((List.range n).map f) j = f j := by
  simp [byteAt, h]

/-- The second byte of a table word is `LEN`, and it stands for `2 + LEN` bytes. -/
theorem tableBytes_length (nbits w : Nat) :
    (tableBytes nbits w).length = 2 + (byteAt (tableBytes nbits w) 1).toNat := by
  rw [tableBytes, byteAt_map_range _ (by omega), List.length_map, List.length_range]

theorem byteAt_encode_one (i : Instr) : byteAt (encode i) 1 = BitVec.ofNat 8 i.payload.length := rfl

theorem byteAt_take {bs : List Byte} {n j : Nat} (h : j < n) : byteAt (bs.take n) j = byteAt bs j :=
  byteAt_eq_of_take_eq (by rw [List.take_take, Nat.min_self]) h

/-- A table word from which the decoder reads a command stands for the packet of that command and for no other byte. -/
theorem tableBytes_of_decodeTableWord {nbits w : Nat} {i : Instr} (h : decodeTableWord nbits w = some i) :
    i.WellFormed ∧ tableBytes nbits w = encode i := by
  cases hd : decode (tableBytes nbits w) with
  | illegalOpcode op n => simp [decodeTableWord, hd] at h
  | short => simp [decodeTableWord, hd] at h
  | command j n =>
    obtain rfl : j = i := by simpa [decodeTableWord, hd] using h
    obtain ⟨hwf, rfl, -, htake⟩ := encodeOfDecodeIsThePacket _ _ _ hd
    have hlen : (byteAt (tableBytes nbits w) 1).toNat = j.payload.length := by
      rw [← byteAt_take (n := 2 + j.payload.length) (by omega), htake, byteAt_encode_one, BitVec.toNat_ofNat]
      exact Nat.mod_eq_of_lt (Nat.lt_succ_of_le hwf)
    refine ⟨hwf, ?_⟩
    rw [← htake, ← hlen, ← tableBytes_length, List.take_length]

/-- A settled stream does not begin with a reset that abandons a packet put ahead of it. -/
theorem settle_input_ne_duringCommand (s : State) (es : List HostEvent) :
    (settle s).input ≠ .reset .duringCommand :: es := by
  obtain ⟨hne, h⟩ | ⟨time, rest, -, h⟩ := settle_cases s <;> rw [h]
  · exact hne _ es
  · simp

/-- A step with the table word of a command offered performs that command. -/
theorem step_withFetchWord {nbits w : Nat} {i : Instr} (s : State) (h : decodeTableWord nbits w = some i) :
    step (s.withFetchWord nbits w) = exec i (settle s) := by
  obtain ⟨hwf, hbytes⟩ := tableBytes_of_decodeTableWord h
  have hin : (s.withFetchWord nbits w).input = (encode i).map .byte ++ (settle s).input := by
    rw [State.withFetchWord, offer_input, hbytes]
  obtain ⟨htaken, -⟩ := stepRunsTheDecodedCommand _ i _ hwf hin
  exact htaken (settle_input_ne_duringCommand s)

/-- Settles O7: the offered packet is performed at the settled state. -/
theorem offeredTableWordIsTheCommandRun : Obligations.OfferedTableWordIsTheCommandRun := by
  intro s nbits w i h
  rw [step_withFetchWord s h]
  obtain ⟨hne, hs⟩ | ⟨time, rest, hin, hs⟩ := settle_cases s
  · exact ⟨fun _ => by rw [hs], fun time es hin => absurd hin (hne time es)⟩
  · refine ⟨fun hno => absurd hin (hno time rest), fun time' es hin' => ?_⟩
    cases hin.symm.trans hin'
    rw [hs]

end Sys2Proof.Machine
end

section
/-! PROOFS. Family 30_encoding: the host's pseudo-instructions (R61, R62). SHA_FINISH on the context of a message answers SHA-256 of
it (R133, R136). -/

namespace Sys2Proof.Machine

/-! ### SHA_FINISH, store by store (R133) -/

theorem zeroFrom_toList {n : Nat} (buf : Vector Byte 64) (h : n ≤ 64) :
    (zeroFrom n buf).toList = buf.toList.take n ++ List.replicate (64 - n) 0 := by
  apply List.ext_getElem
  · simp; omega
  · intro j hj _
    rw [Vector.length_toList] at hj
    by_cases hn : n ≤ j
    · rw [List.getElem_append_right (by simp; omega)]
      simp [zeroFrom, hn]
    · rw [List.getElem_append_left (by simp; omega)]
      simp [zeroFrom, hn]

theorem storeLength_toList (v : BitVec 64) (buf : Vector Byte 64) :
    (storeLength v buf).toList = buf.toList.take 56 ++ bytesBe64 v := by
  have hlen := bytesBe64_length v
  unfold storeLength
  generalize bytesBe64 v = bytes at hlen ⊢
  apply List.ext_getElem
  · simp [hlen]
  · intro j hj _
    rw [Vector.length_toList] at hj
    by_cases hn : j < 56
    · rw [List.getElem_append_left (by simp; omega)]
      simp [hn]
    · rw [List.getElem_append_right (by simp; omega)]
      simp [hn, byteAt_eq_getElem (show j - 56 < bytes.length by omega)]

section
variable {d : DigestContext}

theorem padMessage_idx_val (h : d.idx.val < 64) : (padMessage d).idx.val = d.idx.val + 1 := by
  rw [padMessage_idx, Fin.val_ofNat, Nat.mod_eq_of_lt (by omega)]

/-- The buffer after the 0x80 byte and the zero fill. -/
theorem padMessage_buf (h : d.idx.val < 64) :
    (padMessage d).buf.toList = d.buf.toList.take d.idx.val ++ [0x80] ++ List.replicate (63 - d.idx.val) 0 := by
  rw [padMessage, zeroFrom_toList _ (by omega), take_setIfInBounds _ _ h, Nat.sub_add_eq, Nat.sub_right_comm]

/-- The buffer that SHA_FINISH compresses last is also the one it leaves. -/
theorem finishDigest_buf :
    (finishDigest d).buf.toList = (makeRoom (padMessage d)).buf.toList.take 56 ++ bytesBe64 d.bitcnt := by
  simp only [finishDigest, compress_buf, storeLength_toList, makeRoom_bitcnt, padMessage_bitcnt]

theorem finishDigest_h :
    (finishDigest d).h = compressBlock (makeRoom (padMessage d)).h (finishDigest d).buf.toList := rfl

/-- Where 8 bytes remain after the 0x80 byte, the length goes into the same block. -/
theorem makeRoom_padMessage_of_le (h : d.idx.val ≤ 55) : makeRoom (padMessage d) = padMessage d := by
  have hidx := padMessage_idx_val (d := d) (by omega)
  rw [makeRoom, if_neg (by omega)]

/-- Where fewer remain, that block is compressed and a fresh one begun. -/
theorem makeRoom_padMessage_of_ge (h : 56 ≤ d.idx.val) (hlt : d.idx.val < 64) :
    makeRoom (padMessage d) = { compress (padMessage d) with buf := zeroFrom 0 (padMessage d).buf } := by
  have hidx := padMessage_idx_val hlt
  rw [makeRoom, if_pos (by omega)]

theorem finishDigest_buf_of_le (h : d.idx.val ≤ 55) :
    (finishDigest d).buf.toList =
      d.buf.toList.take d.idx.val ++ [0x80] ++ List.replicate (55 - d.idx.val) 0 ++ bytesBe64 d.bitcnt := by
  have hlen : (d.buf.toList.take d.idx.val ++ [(0x80 : Byte)]).length = d.idx.val + 1 := by simp; omega
  rw [finishDigest_buf, makeRoom_padMessage_of_le h, padMessage_buf (by omega), List.take_append,
    List.take_of_length_le (by omega), List.take_replicate, hlen,
    show min (56 - (d.idx.val + 1)) (63 - d.idx.val) = 55 - d.idx.val by omega]

theorem finishDigest_h_of_le (h : d.idx.val ≤ 55) :
    (finishDigest d).h = compressBlock d.h (finishDigest d).buf.toList := by
  rw [finishDigest_h, makeRoom_padMessage_of_le h, padMessage_h]

theorem finishDigest_buf_of_ge (h : 56 ≤ d.idx.val) (hlt : d.idx.val < 64) :
    (finishDigest d).buf.toList = List.replicate 56 0 ++ bytesBe64 d.bitcnt := by
  rw [finishDigest_buf, makeRoom_padMessage_of_ge h hlt, zeroFrom_toList _ (by omega)]
  rfl

theorem finishDigest_h_of_ge (h : 56 ≤ d.idx.val) (hlt : d.idx.val < 64) :
    (finishDigest d).h =
      compressBlock
        (compressBlock d.h (d.buf.toList.take d.idx.val ++ [0x80] ++ List.replicate (63 - d.idx.val) 0))
        (finishDigest d).buf.toList := by
  rw [finishDigest_h, makeRoom_padMessage_of_ge h hlt, compress_h, padMessage_h, padMessage_buf hlt]

end

/-! ### The digest of a message (R136) -/

/-- SHA_FINISH compresses what is in the buffer with the padding of R136 after it: one block, or two. -/
theorem finishDigest_h_eq_hashBlocks {d : DigestContext} {zeros : Nat} (hlt : d.idx.val < 64) (hz : zeros < 64)
    (hwhole : (d.idx.val + 9 + zeros) % 64 = 0) :
    (finishDigest d).h =
      hashBlocks d.h (d.buf.toList.take d.idx.val ++ [0x80] ++ List.replicate zeros 0 ++ bytesBe64 d.bitcnt) := by
  by_cases h55 : d.idx.val ≤ 55
  · obtain rfl : zeros = 55 - d.idx.val := by omega
    rw [← finishDigest_buf_of_le h55, hashBlocks_block _ (by simp), finishDigest_h_of_le h55]
  · have h56 : 56 ≤ d.idx.val := by omega
    obtain rfl : zeros = 63 - d.idx.val + 56 := by omega
    rw [← List.replicate_append_replicate, ← List.append_assoc, List.append_assoc _ (List.replicate 56 0),
      ← finishDigest_buf_of_ge h56 hlt, hashBlocks_block_append _ _ (by simp; omega), hashBlocks_block _ (by simp),
      finishDigest_h_of_ge h56 hlt]

/-- The whole blocks of a message are compressed already, and the rest of it is in the buffer. -/
theorem hashBlocks_append_of_holds {d : DigestContext} {m : List Byte} (hd : d.Holds m) (tail : List Byte) :
    hashBlocks shaIv (m ++ tail) = hashBlocks d.h (d.buf.toList.take d.idx.val ++ tail) := by
  obtain ⟨-, hh, hbuf, -, -⟩ := hd
  have hwhole : (m.take (64 * (m.length / 64))).length = 64 * (m.length / 64) := by simp; omega
  rw [hh, hbuf, ← hashBlocks_append _ _ hwhole, ← List.append_assoc, List.take_append_drop]

/-- SHA_FINISH on the context of a message answers SHA-256 of the message (R133, R136). -/
theorem digestBytes_finishDigest {d : DigestContext} {m : List Byte} (hd : d.Holds m) :
    digestBytes (finishDigest d).h = sha256 m := by
  have ⟨_, _, _, hidx, hbit⟩ := hd
  rw [sha256, paddedMessage, finishDigest_h_eq_hashBlocks (zeros := (64 - (m.length + 9) % 64) % 64) (by omega) (by omega)
    (by omega), hbit]
  simp only [List.append_assoc, hashBlocks_append_of_holds hd]

/-! ### The run of a digest (R131 to R133) -/

theorem runCommands_cons {i : Instr} {s t : State} (h : exec i s = .next t) (is : List Instr) :
    runCommands (i :: is) s = runCommands is t := by
  simp only [runCommands, h]

theorem runCommands_singleton (i : Instr) (s : State) : runCommands [i] s = exec i s := by
  simp only [runCommands]
  cases exec i s <;> rfl

theorem exec_shaAdd_of_accumulating {s : State} (p : List Byte) (h : s.digest.phase = .accumulating) :
    exec (.shaAdd p) s = respondOk [] { s with digest := appendBytes s.digest p } := by
  simpa [exec, h] using execShaAdd_cases p s

theorem exec_shaFinish_of_accumulating {s : State} (h : s.digest.phase = .accumulating) :
    exec (.shaFinish []) s =
      respondOk (digestBytes (finishDigest s.digest).h) { s with digest := finishDigest s.digest } := by
  simpa [exec, h] using execShaFinish_cases [] s

/-- Each SHA_ADD in phase Accumulating is answered `OK`, and its payload is appended. -/
theorem runCommands_shaAdd (chunks : List (List Byte)) (is : List Instr) {s : State} (h : s.digest.phase = .accumulating) :
    runCommands (chunks.map .shaAdd ++ is) s = runCommands is
      { s with
        digest := appendBytes s.digest chunks.flatten
        output := s.output ++ (List.replicate chunks.length [0x00, 0x00]).flatten } := by
  induction chunks generalizing s with
  | nil => simp
  | cons p chunks ih =>
    rw [List.map_cons, List.cons_append, runCommands_cons (exec_shaAdd_of_accumulating p h), ih (by simpa using h)]
    simp [emit, responsePacket, statusCode, appendBytes, List.replicate_succ]

/-- A run of SHA_START, SHA_ADDs and SHA_FINISH leaves the finished context of the concatenated payloads and answers its digest,
whatever the state. -/
theorem runCommands_digest (chunks : List (List Byte)) (s : State) :
    runCommands (.shaStart [] :: (chunks.map .shaAdd ++ [.shaFinish []])) s = .next
      { s with
        digest := finishDigest (appendBytes (startDigest s.digest) chunks.flatten)
        output := s.output ++ [0x00, 0x00] ++ (List.replicate chunks.length [0x00, 0x00]).flatten ++
          0x00 :: 0x20 :: sha256 chunks.flatten } := by
  have hstart : exec (.shaStart []) s = respondOk [] { s with digest := startDigest s.digest } := rfl
  have hsha : digestBytes (finishDigest (appendBytes (startDigest s.digest) chunks.flatten)).h = sha256 chunks.flatten :=
    digestBytes_finishDigest (holds_appendBytes chunks.flatten (holds_startDigest s.digest))
  have hlen : (sha256 chunks.flatten).length = 32 := digestBytes_length _
  rw [runCommands_cons hstart, runCommands_shaAdd _ _ (by simp), runCommands_singleton,
    exec_shaFinish_of_accumulating (by simp), respondOk_spec]
  simp [hsha, hlen, emit, responsePacket, statusCode]

/-! ### The chunks of a message (R61) -/

/-- With fuel enough the chunks are the whole string. -/
theorem chunksOf_flatten {n : Nat} (hn : 0 < n) {fuel : Nat} {bs : List Byte} (h : bs.length ≤ fuel) :
    (chunksOf n fuel bs).flatten = bs := by
  induction fuel generalizing bs with
  | zero => simp [List.eq_nil_of_length_eq_zero (Nat.le_zero.mp h)]
  | succ fuel ih =>
    cases bs with
    | nil => simp
    | cons b bs =>
      have hrest : ((b :: bs).drop n).length ≤ fuel := by
        simp only [List.length_drop, List.length_cons] at h ⊢
        omega
      rw [chunksOf, List.flatten_cons, ih hrest, List.take_append_drop]

theorem length_le_of_mem_chunksOf {n fuel : Nat} {bs c : List Byte} (h : c ∈ chunksOf n fuel bs) : c.length ≤ n := by
  induction fuel generalizing bs with
  | zero => simp [chunksOf] at h
  | succ fuel ih =>
    cases bs with
    | nil => simp at h
    | cons b bs =>
      rw [chunksOf, List.mem_cons] at h
      obtain rfl | h := h
      · exact List.length_take_le n _
      · exact ih h

theorem messageChunks_flatten (m : List Byte) : (messageChunks m).flatten = m := chunksOf_flatten (by decide) le_rfl

theorem sha256Commands_wellFormed {m : List Byte} {i : Instr} (h : i ∈ sha256Commands m) : i.WellFormed := by
  simp only [sha256Commands, List.mem_cons, List.mem_append, List.mem_map, List.not_mem_nil, or_false] at h
  obtain rfl | ⟨c, hc, rfl⟩ | rfl := h
  · exact Nat.zero_le _
  · exact length_le_of_mem_chunksOf hc
  · exact Nat.zero_le _

/-- Settles O44: the chunks are those of the message, and the run of the expansion is that of a digest. -/
theorem sha256PseudoInstructionAnswersTheDigest : Obligations.Sha256PseudoInstructionAnswersTheDigest := by
  intro s m
  have hrun := runCommands_digest (messageChunks m) s
  rw [messageChunks_flatten] at hrun
  rw [List.append_assoc s.output] at hrun
  exact ⟨fun i hi => sha256Commands_wellFormed hi, messageChunks_flatten m, rfl, _, _, hrun, rfl⟩

/-! ### `ENCRYPT_PADDED` (R62) -/

/-- Settles O45: the bytes and their zeros are a block of 16 bytes. -/
theorem encryptPaddedSendsTheZeroPaddedBlock : Obligations.EncryptPaddedSendsTheZeroPaddedBlock := by
  intro p
  constructor
  · intro h1 h15
    have hblock : (p ++ List.replicate (16 - p.length) (0x00 : Byte)).length = 16 := by simp; omega
    rw [assemble, encryptPaddedCommand, if_pos ⟨h1, h15⟩, Option.map_some, encode, packet, Instr.payload, hblock]
    rfl
  · intro h
    rw [assemble, encryptPaddedCommand, if_neg (by omega), Option.map_none]

end Sys2Proof.Machine
end

section
/-! PROOFS. Family 40_gf_arithmetic: `gmul` is the product of the field of R70 (R72, R73), and GF_MULTIPLY (R74). `xtime` and
`remainder11B` are additive for the exclusive or, and the two products are so in each of their bytes; so an equation between them
is checked on the terms x^0 to x^7. And a function that is additive and commutes with `xtime` commutes with `gmul _ b`. -/

namespace Sys2Proof.Machine

/-! ### Functions additive for the exclusive or (R70) -/

/-- `f` keeps the addition of polynomials over GF(2) (R70). -/
def XorAdditive {m n : Nat} (f : BitVec m → BitVec n) : Prop := ∀ x y, f (x ^^^ y) = f x ^^^ f y

theorem xor_xor_xor_comm {n : Nat} (a b c d : BitVec n) : (a ^^^ b) ^^^ (c ^^^ d) = (a ^^^ c) ^^^ (b ^^^ d) := by
  ac_rfl

theorem getLsbD_xor_twoPow {m k : Nat} (hk : k < m) (b : BitVec m) (i : Nat) :
    (b ^^^ BitVec.twoPow m k).getLsbD i = (b.getLsbD i ^^ decide (k = i)) := by
  rw [BitVec.getLsbD_xor, BitVec.getLsbD_twoPow, decide_eq_true hk, Bool.true_and]

namespace XorAdditive

variable {m n k : Nat} {f g : BitVec m → BitVec n}

theorem id : XorAdditive (id : BitVec m → BitVec m) := fun _ _ => rfl

theorem comp {h : BitVec n → BitVec k} (hh : XorAdditive h) (hf : XorAdditive f) : XorAdditive fun x => h (f x) := by
  intro x y
  simp only [hf x y, hh (f x) (f y)]

theorem iterate {f : BitVec m → BitVec m} (hf : XorAdditive f) (k : Nat) : XorAdditive f^[k] := by
  induction k with
  | zero => exact id
  | succ k ih => exact ih.comp hf

theorem map_zero (hf : XorAdditive f) : f 0 = 0 := by
  have h := hf 0 0
  rwa [BitVec.xor_self, BitVec.xor_self] at h

/-- Two additive functions that agree on every term x^i are equal: take the set bits off `b` one by one, from the top. -/
theorem eq_of_eq_twoPow (hf : XorAdditive f) (hg : XorAdditive g)
    (h : ∀ i : Fin m, f (BitVec.twoPow m i) = g (BitVec.twoPow m i)) (b : BitVec m) : f b = g b := by
  suffices hlow : ∀ k ≤ m, ∀ b : BitVec m, (∀ i, k ≤ i → b.getLsbD i = false) → f b = g b from
    hlow m le_rfl b fun i hi => BitVec.getLsbD_of_ge b i hi
  intro k
  induction k with
  | zero =>
    intro _ b hb
    have hb0 : b = 0 := BitVec.eq_of_getLsbD_eq fun i _ => by simp [hb i]
    rw [hb0, hf.map_zero, hg.map_zero]
  | succ k ih =>
    intro hk b hb
    by_cases hbk : b.getLsbD k
    · have hrest : f (b ^^^ BitVec.twoPow m k) = g (b ^^^ BitVec.twoPow m k) := by
        refine ih (by omega) _ fun i hi => ?_
        obtain rfl | hi := hi.eq_or_lt
        · simp [getLsbD_xor_twoPow hk, hbk]
        · simp [getLsbD_xor_twoPow hk, hb i hi, (Nat.lt_of_succ_le hi).ne]
      rw [hf, hg, h ⟨k, hk⟩] at hrest
      exact (BitVec.xor_left_inj _).mp hrest
    · refine ih (by omega) b fun i hi => ?_
      obtain rfl | hi := hi.eq_or_lt
      · simpa using hbk
      · exact hb i hi

end XorAdditive

/-! ### Conditional additions -/

/-- A term added where a bit is set: the bits add up (`^^`). -/
theorem ite_xor_ite {n : Nat} (b b' : Bool) (p p' c : BitVec n) :
    (if b then p ^^^ c else p) ^^^ (if b' then p' ^^^ c else p') = if b ^^ b' then (p ^^^ p') ^^^ c else p ^^^ p' := by
  match b, b' with
  | false, false => rfl
  | false, true => exact (BitVec.xor_assoc p p' c).symm
  | true, false =>
    show p ^^^ c ^^^ p' = p ^^^ p' ^^^ c
    ac_rfl
  | true, true => exact (xor_xor_xor_comm p c p' c).trans (by simp)

/-- Two terms added where one bit is set: the terms add up. -/
theorem ite_xor_ite_same {n : Nat} (b : Bool) (p p' c c' : BitVec n) :
    (if b then p ^^^ c else p) ^^^ (if b then p' ^^^ c' else p') = if b then (p ^^^ p') ^^^ (c ^^^ c') else p ^^^ p' := by
  cases b
  · rfl
  · exact xor_xor_xor_comm p c p' c'

/-! ### `xtime` (R71) -/

theorem xtime_xor : XorAdditive xtime := by
  intro a b
  simp only [xtime, BitVec.shiftLeft_xor_distrib, BitVec.getLsbD_xor, ite_xor_ite]

/-- Settles O13: bit 7 is set exactly from 128 on, and the shift doubles modulo 256. -/
theorem xtimeDoublesAndReduces : Obligations.XtimeDoublesAndReduces := by
  intro a
  have hbit : a.getLsbD 7 = decide (128 ≤ a.toNat) := by
    rw [← BitVec.msb_eq_getLsbD_last, BitVec.msb_eq_decide]
  have hshift : (a <<< 1).toNat = 2 * a.toNat % 256 := by
    rw [BitVec.toNat_shiftLeft, Nat.shiftLeft_eq, mul_comm]
  by_cases h : a.toNat < 128
  · have hx : xtime a = a <<< 1 := by rw [xtime, hbit, decide_eq_false (by omega), if_neg Bool.false_ne_true]
    rw [hx, hshift, if_pos h, Nat.mod_eq_of_lt (by omega)]
  · have hx : xtime a = a <<< 1 ^^^ 0x1B := by rw [xtime, hbit, decide_eq_true (by omega), if_pos rfl]
    rw [hx, BitVec.toNat_xor, hshift, if_neg h, show 2 * a.toNat % 256 = 2 * a.toNat - 256 by omega]
    rfl

/-! ### The loop of `gmul` (R72) -/

theorem gmulLoop_xor_left (n : Nat) (p p' a a' b : Byte) :
    gmulLoop n (p ^^^ p') (a ^^^ a') b = gmulLoop n p a b ^^^ gmulLoop n p' a' b := by
  induction n generalizing p p' a a' b with
  | zero => rfl
  | succ n ih => rw [gmulLoop, gmulLoop, gmulLoop, ← ih, ite_xor_ite_same, xtime_xor]

theorem gmulLoop_xor_right (n : Nat) (p p' a b b' : Byte) :
    gmulLoop n (p ^^^ p') a (b ^^^ b') = gmulLoop n p a b ^^^ gmulLoop n p' a b' := by
  induction n generalizing p p' a b b' with
  | zero => rfl
  | succ n ih =>
    rw [gmulLoop, gmulLoop, gmulLoop, ← ih, ite_xor_ite, BitVec.getLsbD_xor, BitVec.ushiftRight_xor_distrib]

theorem map_gmulLoop {f : Byte → Byte} (hf : XorAdditive f) (hx : ∀ a, f (xtime a) = xtime (f a)) (n : Nat) (p a b : Byte) :
    f (gmulLoop n p a b) = gmulLoop n (f p) (f a) b := by
  induction n generalizing p a b with
  | zero => rfl
  | succ n ih => rw [gmulLoop, ih, hx, apply_ite f, hf, gmulLoop]

theorem xor_gmul (a a' b : Byte) : gmul (a ^^^ a') b = gmul a b ^^^ gmul a' b := gmulLoop_xor_left 8 0 0 a a' b

theorem gmul_xor (a b b' : Byte) : gmul a (b ^^^ b') = gmul a b ^^^ gmul a b' := gmulLoop_xor_right 8 0 0 a b b'

theorem xorAdditive_gmul_left (b : Byte) : XorAdditive fun a => gmul a b := fun a a' => xor_gmul a a' b

theorem xorAdditive_gmul (a : Byte) : XorAdditive (gmul a) := gmul_xor a

/-- What is additive and commutes with multiplication by x commutes with multiplication by any byte. -/
theorem map_gmul {f : Byte → Byte} (hf : XorAdditive f) (hx : ∀ a, f (xtime a) = xtime (f a)) (a b : Byte) :
    f (gmul a b) = gmul (f a) b := by
  rw [gmul, map_gmulLoop hf hx, hf.map_zero, gmul]

theorem gmul_xtime_left (a b : Byte) : gmul (xtime a) b = xtime (gmul a b) := (map_gmul xtime_xor (fun _ => rfl) a b).symm

/-! ### The polynomial product modulo 0x11B (R70) -/

theorem xorAdditive_carrylessProduct_left (b : Byte) : XorAdditive fun a => carrylessProduct a b := by
  intro a a'
  refine List.foldl_hom₂ (List.range 8) (· ^^^ ·) _ _ _ (0 : BitVec 16) (0 : BitVec 16) fun p p' k => ?_
  rw [ite_xor_ite_same, ← BitVec.shiftLeft_xor_distrib, BitVec.zeroExtend, BitVec.setWidth_xor]

theorem xorAdditive_carrylessProduct (a : Byte) : XorAdditive (carrylessProduct a) := by
  intro b b'
  refine List.foldl_hom₂ (List.range 8) (· ^^^ ·) _ _ _ (0 : BitVec 16) (0 : BitVec 16) fun p p' k => ?_
  rw [ite_xor_ite, BitVec.getLsbD_xor]

theorem xorAdditive_remainder11B : XorAdditive remainder11B := by
  intro p p'
  rw [remainder11B, remainder11B, remainder11B, BitVec.truncate, ← BitVec.setWidth_xor]
  congr 1
  refine List.foldl_hom₂ (List.range 7) (· ^^^ ·) _ _ _ p p' fun p p' k => ?_
  rw [ite_xor_ite, BitVec.getLsbD_xor]

/-- Settles O14: both sides are additive in each byte, and they agree on the 64 products of two terms. -/
theorem gmulIsThePolynomialProductModulo11B : Obligations.GmulIsThePolynomialProductModulo11B := by
  intro a b
  refine (xorAdditive_gmul a).eq_of_eq_twoPow (xorAdditive_remainder11B.comp (xorAdditive_carrylessProduct a)) (fun j => ?_) b
  have hterms : ∀ i j : Fin 8, gmul (BitVec.twoPow 8 i) (BitVec.twoPow 8 j) =
      remainder11B (carrylessProduct (BitVec.twoPow 8 i) (BitVec.twoPow 8 j)) := by decide
  exact (xorAdditive_gmul_left _).eq_of_eq_twoPow
    (xorAdditive_remainder11B.comp (xorAdditive_carrylessProduct_left _)) (fun i => hterms i j) a

/-! ### The laws of the field (R73) -/

theorem gmul_zero (a : Byte) : gmul a 0 = 0 := (xorAdditive_gmul a).map_zero

theorem one_gmul (b : Byte) : gmul 1 b = b := (xorAdditive_gmul 1).eq_of_eq_twoPow .id (by decide) b

theorem gmul_comm (a b : Byte) : gmul a b = gmul b a := by
  have h := map_gmul (xorAdditive_gmul_left b) (gmul_xtime_left · b) 1 a
  rwa [one_gmul, one_gmul] at h

theorem gmul_one (a : Byte) : gmul a 1 = a := by rw [gmul_comm, one_gmul]

theorem gmul_xtime (a b : Byte) : gmul a (xtime b) = xtime (gmul a b) := by
  rw [gmul_comm, gmul_xtime_left, gmul_comm]

theorem gmul_assoc (a b c : Byte) : gmul (gmul a b) c = gmul a (gmul b c) :=
  (map_gmul (xorAdditive_gmul a) (gmul_xtime a) b c).symm

theorem gmul_two (a : Byte) : gmul a 0x02 = xtime a := by
  rw [show (0x02 : Byte) = xtime 1 from rfl, gmul_xtime, gmul_one]

theorem gmul_three (a : Byte) : gmul a 0x03 = xtime a ^^^ a := by
  rw [show (0x03 : Byte) = 0x02 ^^^ 0x01 from rfl, gmul_xor, gmul_two, gmul_one]

/-! ### Powers and inverses

Squaring is additive, so a^256 = a for every byte. Then a^255 is its own square, so it is 0 or 1, and a^254 is the inverse of
every a other than 0. -/

/-- The `n`-th power of a byte for `gmul`. -/
def gpow (a : Byte) : Nat → Byte
  | 0 => 1
  | n + 1 => gmul a (gpow a n)

theorem gpow_succ (a : Byte) (n : Nat) : gpow a (n + 1) = gmul a (gpow a n) := rfl

theorem gpow_add (a : Byte) (m n : Nat) : gpow a (m + n) = gmul (gpow a m) (gpow a n) := by
  induction m with
  | zero => rw [Nat.zero_add, gpow, one_gmul]
  | succ m ih => rw [Nat.succ_add, gpow, ih, gpow, gmul_assoc]

/-- The square of a byte for `gmul`. -/
def gsquare (a : Byte) : Byte := gmul a a

theorem xorAdditive_gsquare : XorAdditive gsquare := by
  intro a b
  calc gmul (a ^^^ b) (a ^^^ b)
      = (gmul a a ^^^ gmul b a) ^^^ (gmul a b ^^^ gmul b b) := by
        rw [gmul_xor, xor_gmul, xor_gmul]
    _ = gmul a a ^^^ gmul b b := by
        rw [gmul_comm b a, BitVec.xor_assoc, ← BitVec.xor_assoc (gmul a b), BitVec.xor_self, BitVec.zero_xor]

theorem gpow_two_pow (a : Byte) (k : Nat) : gpow a (2 ^ k) = gsquare^[k] a := by
  induction k with
  | zero => exact gmul_one a
  | succ k ih => rw [pow_succ, mul_two, gpow_add, ih, Function.iterate_succ_apply', gsquare]

theorem gpow_256 (a : Byte) : gpow a 256 = a :=
  (gpow_two_pow a 8).trans <| (xorAdditive_gsquare.iterate 8).eq_of_eq_twoPow .id (by decide +kernel) a

theorem eq_zero_or_one_of_gmul_self {e : Byte} (h : gmul e e = e) : e = 0 ∨ e = 1 := by
  have hall : ∀ n : Fin 256, gmul (.ofFin n) (.ofFin n) = .ofFin n → n = 0 ∨ n = 1 := by decide +kernel
  exact (hall e.toFin h).imp (congrArg BitVec.ofFin) (congrArg BitVec.ofFin)

theorem gmul_gpow_254 {a : Byte} (ha : a ≠ 0) : gmul a (gpow a 254) = 1 := by
  have hidem : gmul (gpow a 255) (gpow a 255) = gpow a 255 := by
    rw [← gpow_add, show 255 + 255 = 256 + 254 from rfl, gpow_add, gpow_256, ← gpow_succ]
  refine (eq_zero_or_one_of_gmul_self hidem).resolve_left fun h0 => ha ?_
  rw [← gpow_256 a, gpow_succ, h0, gmul_zero]

theorem mem_allBytes (y : Byte) : y ∈ (List.range 256).map (BitVec.ofNat 8) :=
  List.mem_map.mpr ⟨y.toNat, List.mem_range.mpr y.isLt, BitVec.ofNat_toNat 8 y⟩

/-- The search of `ginv` succeeds, since a^254 is among the bytes it looks at. -/
theorem gmul_ginv {a : Byte} (ha : a ≠ 0) : gmul a (ginv a) = 1 := by
  have hfind : (((List.range 256).map (BitVec.ofNat 8)).find? fun y => gmul a y == 1).isSome :=
    List.find?_isSome.mpr ⟨gpow a 254, mem_allBytes _, beq_iff_eq.mpr (gmul_gpow_254 ha)⟩
  obtain ⟨y, hy⟩ := Option.isSome_iff_exists.mp hfind
  rw [ginv, hy, Option.getD_some]
  simpa using List.find?_some hy

theorem gmul_left_cancel {a x y : Byte} (ha : a ≠ 0) (h : gmul a x = gmul a y) : x = y := by
  have hinv (z : Byte) : gmul (ginv a) (gmul a z) = z := by
    rw [← gmul_assoc, gmul_comm (ginv a), gmul_ginv ha, one_gmul]
  rw [← hinv x, h, hinv]

/-- Settles O15: the laws one by one; a factor other than 0 can be cancelled, so there are no zero divisors and one inverse. -/
theorem gmulIsTheProductOfAField : Obligations.GmulIsTheProductOfAField := by
  refine ⟨fun x => ⟨(xorAdditive_gmul_left x).map_zero, one_gmul x, gmul_zero x, gmul_one x⟩, gmul_comm, gmul_xor,
    gmul_assoc, fun a b hab => ?_, fun a => ⟨gmul_two a, gmul_three a⟩, fun a ha => ⟨gmul_ginv ha, fun y hy => ?_⟩⟩
  · exact or_iff_not_imp_left.mpr fun ha => gmul_left_cancel ha (hab.trans (gmul_zero a).symm)
  · exact gmul_left_cancel ha (hy.trans (gmul_ginv ha).symm)

/-! ### GF_MULTIPLY (R74) -/

/-- Settles O12: with two payload bytes the command is performed, with any other number it ends at the check. -/
theorem gfMultiplyAnswersTheProduct : Obligations.GfMultiplyAnswersTheProduct := by
  intro s
  refine ⟨fun a b => ⟨rfl, rfl⟩, fun p hp => ?_⟩
  obtain ⟨-, h⟩ | ⟨a, b, rfl, -⟩ := execGfMultiply_cases p s
  · exact h
  · exact absurd rfl hp

end Sys2Proof.Machine
end

section
/-! PROOFS. Family 41_sbox: the two tables (R80 to R83), `SubWord` and `RotWord` (R84, R91), SBOX_FWD and SBOX_INV (R85, R86). The
affine transform of R80 has an inverse, and that inverse of an entry of `SBOX` is the field inverse of its index: one product for
each entry, where the search of `ginv` is not run. -/

namespace Sys2Proof.Machine

/-- A property of bytes may be checked number by number. -/
theorem forall_byte {P : Byte → Prop} (h : ∀ n : Fin 256, P (.ofFin n)) (x : Byte) : P x := h x.toFin

/-! ### The construction of `SBOX` (R80) -/

/-- The affine transform over GF(2), its terms in the order of the bit formula of R80. -/
def affine (b : Byte) : Byte :=
  b ^^^ b.rotateLeft 4 ^^^ b.rotateLeft 3 ^^^ b.rotateLeft 2 ^^^ b.rotateLeft 1 ^^^ 0x63#8

/-- The inverse of `affine`. -/
def invAffine (y : Byte) : Byte := y.rotateLeft 1 ^^^ y.rotateLeft 3 ^^^ y.rotateLeft 6 ^^^ 0x05

theorem sboxConstruction_eq_affine (x : Byte) : sboxConstruction x = affine (ginv x) := by
  simp only [sboxConstruction, affine, BitVec.ofNat_eq_ofNat]
  ac_rfl

theorem affine_invAffine : ∀ y : Byte, affine (invAffine y) = y := forall_byte (by decide +kernel)

theorem getLsbD_rotateLeft {k i : Nat} (hk : k < 8) (hi : i < 8) (b : Byte) :
    (b.rotateLeft k).getLsbD i = b.getLsbD ((i + (8 - k)) % 8) := by
  rw [BitVec.getLsbD_rotateLeft_of_le hk]
  by_cases h : i < k
  · rw [decide_eq_true h, cond_true, show (i + (8 - k)) % 8 = 8 - k + i by omega]
  · rw [decide_eq_false h, cond_false, decide_eq_true hi, Bool.true_and, show (i + (8 - k)) % 8 = i - k by omega]

/-- Rotation left by `k` brings bit `i - k`, modulo 8, to place `i`. -/
theorem affine_getLsbD {i : Nat} (hi : i < 8) (b : Byte) :
    (affine b).getLsbD i =
      (b.getLsbD i ^^ b.getLsbD ((i + 4) % 8) ^^ b.getLsbD ((i + 5) % 8) ^^ b.getLsbD ((i + 6) % 8) ^^
        b.getLsbD ((i + 7) % 8) ^^ (0x63#8).getLsbD i) := by
  simp (disch := omega) only [affine, BitVec.getLsbD_xor, getLsbD_rotateLeft, Nat.reduceSub]

theorem ginv_zero : ginv 0 = 0 := by
  have hnone : (((List.range 256).map (BitVec.ofNat 8)).find? fun y => gmul 0 y == 1) = none := by
    refine List.find?_eq_none.mpr fun y _ => ?_
    rw [gmul_comm, gmul_zero]
    decide
  rw [ginv, hnone, Option.getD_none]

theorem eq_ginv_of_gmul_eq_one {a y : Byte} (ha : a ≠ 0) (h : gmul a y = 1) : y = ginv a :=
  gmul_left_cancel ha (h.trans (gmul_ginv ha).symm)

theorem gmul_invAffine_sbox : ∀ x : Byte, x ≠ 0 → gmul x (invAffine (sbox x)) = 1 := forall_byte (by decide +kernel)

theorem invAffine_sbox (x : Byte) : invAffine (sbox x) = ginv x := by
  by_cases hx : x = 0
  · rw [hx, ginv_zero]
    rfl
  · exact eq_ginv_of_gmul_eq_one hx (gmul_invAffine_sbox x hx)

/-- The table holds the values of its construction. -/
theorem sbox_eq_sboxConstruction (x : Byte) : sbox x = sboxConstruction x := by
  rw [sboxConstruction_eq_affine, ← invAffine_sbox, affine_invAffine]

/-- Settles O17: an entry is its construction, and the rotations of that are the bit indices of the rule. -/
theorem sboxTableFollowsItsConstruction : Obligations.SboxTableFollowsItsConstruction := by
  intro x i hi
  rw [sbox_eq_sboxConstruction, sboxConstruction_eq_affine, affine_getLsbD hi]

/-! ### The two tables (R82, R83) -/

theorem isbox_sbox : Function.LeftInverse isbox sbox := forall_byte (by decide +kernel)

/-- What has a left inverse is injective, and so, on the finite set of bytes, a bijection. -/
theorem sbox_bijective : Function.Bijective sbox := Finite.injective_iff_bijective.mp isbox_sbox.injective

theorem sbox_isbox : Function.RightInverse isbox sbox := isbox_sbox.rightInverse_of_surjective sbox_bijective.surjective

theorem sbox_ne_self_and_ne_opposite : ∀ x : Byte, sbox x ≠ x ∧ sbox x ≠ x ^^^ 0xFF := forall_byte (by decide +kernel)

/-- Settles O18: `ISBOX` undoes `SBOX`, read at each of the 256 bytes; that they are bijections follows. -/
theorem sboxTablesAreInversePermutations : Obligations.SboxTablesAreInversePermutations := by
  refine ⟨by decide +kernel, by decide +kernel, sbox_bijective, fun x => ?_, by decide +kernel⟩
  exact ⟨isbox_sbox x, sbox_isbox x, sbox_ne_self_and_ne_opposite x⟩

/-! ### `SubWord` and `RotWord` (R84, R91) -/

/-- Settles O19: both take the four bytes of their word, and those of `be32` are its arguments. -/
theorem subWordAndRotWordOnBytes : Obligations.SubWordAndRotWordOnBytes := by
  intro b0 b1 b2 b3
  have hbytes := bytesBe32_be32 b0 b1 b2 b3
  simp only [bytesBe32, List.cons.injEq, and_true] at hbytes
  obtain ⟨h0, h1, h2, h3⟩ := hbytes
  exact ⟨by rw [subWord, h0, h1, h2, h3], by rw [rotWord, h0, h1, h2, h3]⟩

/-! ### SBOX_FWD and SBOX_INV (R85, R86) -/

/-- Settles O16: with one payload byte each command is performed, with any other number it ends at the check. -/
theorem sboxCommandsAnswerTheTableEntries : Obligations.SboxCommandsAnswerTheTableEntries := by
  intro s
  refine ⟨fun x => ⟨rfl, respondOk_spec [sbox x] s⟩, fun x => ⟨rfl, respondOk_spec [isbox x] s⟩, fun p hp => ⟨?_, ?_⟩⟩
  · obtain ⟨-, h⟩ | ⟨x, rfl, -⟩ := execSboxFwd_cases p s
    · exact h
    · exact absurd rfl hp
  · obtain ⟨-, h⟩ | ⟨x, rfl, -⟩ := execSboxInv_cases p s
    · exact h
    · exact absurd rfl hp

end Sys2Proof.Machine
end

section
/-! PROOFS. Family 42_key_schedule: the round constants (R92), the words of the schedule (R90, R93), its bytes (R94), EXPAND_KEY
(R95). A word is computed once, from words that are there already, and is not changed later: what holds of the list at the moment a
word is appended holds of the whole schedule. -/

namespace Sys2Proof.Machine

/-! ### Words and bytes of the schedule (R33, R94) -/

theorem wordAt_of_prefix {ws ws' : List Word} (h : ws <+: ws') {i : Nat} (hi : i < ws.length) :
    wordAt ws' i = wordAt ws i := by
  obtain ⟨tail, rfl⟩ := h
  exact List.getD_append _ _ _ _ hi

/-- Bytes `4i..4i+3` of a list of words written out are word `i`, big-endian. -/
theorem take_drop_wordsToBytes {ws : List Word} {i : Nat} (h : i < ws.length) :
    ((wordsToBytes ws).drop (4 * i)).take 4 = bytesBe32 (wordAt ws i) := by
  induction ws generalizing i with
  | nil => cases h
  | cons w ws ih =>
    cases i with
    | zero => rfl
    | succ i =>
      rw [wordsToBytes_cons, Nat.mul_succ, Nat.add_comm, ← List.drop_drop, List.drop_left' (bytesBe32_length w)]
      exact ih (Nat.lt_of_succ_lt_succ h)

/-! ### The expansion (R93) -/

theorem wordAt_expandNext_self (rc : Nat → Word) (nk : Nat) (w : List Word) :
    wordAt (expandNext rc nk w) w.length =
      wordAt w (w.length - nk) ^^^ expandTemp rc nk w.length (wordAt w (w.length - 1)) := by
  simp [expandNext, wordAt]

/-- Each word the loop appends is made from the word before it and the word `nk` before it. -/
theorem wordAt_expandLoop (rc : Nat → Word) {nk n i : Nat} {w : List Word} (hnk : 0 < nk) (hw : nk ≤ w.length)
    (hi : w.length ≤ i) (hn : i < w.length + n) :
    wordAt (expandLoop rc nk n w) i =
      wordAt (expandLoop rc nk n w) (i - nk) ^^^ expandTemp rc nk i (wordAt (expandLoop rc nk n w) (i - 1)) := by
  induction n generalizing w with
  | zero => omega
  | succ n ih =>
    have hlen := expandNext_length rc nk w
    obtain rfl | hlt := hi.eq_or_lt
    · have hpre := expandLoop_prefix rc nk (n + 1) w
      have hself : wordAt (expandLoop rc nk (n + 1) w) w.length = wordAt (expandNext rc nk w) w.length :=
        wordAt_of_prefix (expandLoop_prefix rc nk n (expandNext rc nk w)) (by omega)
      rw [hself, wordAt_expandNext_self, wordAt_of_prefix hpre (i := w.length - nk) (by omega),
        wordAt_of_prefix hpre (i := w.length - 1) (by omega)]
    · exact ih (by omega) (by omega) (by omega)

/-- The loop reads the round constants of the indices it computes, and no others. -/
theorem expandLoop_congr {rc rc' : Nat → Word} {nk n : Nat} {w : List Word}
    (h : ∀ i, w.length ≤ i → i < w.length + n → rc (i / nk) = rc' (i / nk)) :
    expandLoop rc nk n w = expandLoop rc' nk n w := by
  induction n generalizing w with
  | zero => rfl
  | succ n ih =>
    have hlen := expandNext_length rc' nk w
    have hnext : expandNext rc nk w = expandNext rc' nk w := by
      simp only [expandNext, expandTemp, h w.length le_rfl (by omega)]
    rw [expandLoop, expandLoop, hnext]
    exact ih fun i h1 h2 => h i (by omega) (by omega)

theorem wordAt_keyWords {key : List Byte} {i : Nat} (h : i < key.length / 4) : wordAt (keyWords key) i = be32At key i := by
  simp [wordAt, keyWords, h]

theorem expandKey_length (key : List Byte) : (expandKey key).length = 4 * (key.length / 4 + 7) := by
  rw [expandKey, expandKeyWith, expandLoop_length, keyWords_length]
  omega

/-- The words of the key are the first of the schedule. -/
theorem wordAt_expandKey_of_lt {key : List Byte} {i : Nat} (h : i < key.length / 4) :
    wordAt (expandKey key) i = be32At key i := by
  rw [expandKey, expandKeyWith, wordAt_of_prefix (expandLoop_prefix _ _ _ _) (by rwa [keyWords_length]), wordAt_keyWords h]

/-- The recurrence of the later words. -/
theorem wordAt_expandKey_of_ge {key : List Byte} {i : Nat} (hpos : 0 < key.length / 4) (hi : key.length / 4 ≤ i)
    (hlt : i < 4 * (key.length / 4 + 7)) :
    wordAt (expandKey key) i =
      wordAt (expandKey key) (i - key.length / 4) ^^^
        expandTemp rcon (key.length / 4) i (wordAt (expandKey key) (i - 1)) :=
  wordAt_expandLoop rcon hpos (keyWords_length key).ge (by rwa [keyWords_length]) (by rw [keyWords_length]; omega)

/-- Settles O21: the recurrence of the loop, for a loop that starts from the words of the key. -/
theorem scheduleWordsFollowTheRecurrence : Obligations.ScheduleWordsFollowTheRecurrence := by
  intro key nk hlen hnk
  obtain rfl : nk = key.length / 4 := by omega
  exact ⟨expandKey_length key, fun i hi => wordAt_expandKey_of_lt hi,
    fun i hi hlt => wordAt_expandKey_of_ge (by omega) hi hlt⟩

/-- The three legal numbers of key words are those of the three key sizes. -/
theorem exists_keySize_of_words {nk : Nat} (h : nk = 4 ∨ nk = 6 ∨ nk = 8) :
    ∃ size : KeySize, keyBytes size = 4 * nk := by
  obtain rfl | rfl | rfl := h
  · exact ⟨.bytes16, rfl⟩
  · exact ⟨.bytes24, rfl⟩
  · exact ⟨.bytes32, rfl⟩

/-- Settles O22: the schedule is its words written out, and the first of them are those of the key. -/
theorem scheduleBytesBeginWithTheKeyAndAreBigEndian : Obligations.ScheduleBytesBeginWithTheKeyAndAreBigEndian := by
  intro key nk hlen hnk
  have hwords : (expandKey key).length = 4 * (nk + 7) := by rw [expandKey_length]; omega
  obtain ⟨size, hsize⟩ := exists_keySize_of_words hnk
  have hkey : key.length = keyBytes size := hlen.trans hsize.symm
  have hbytes : (keySchedule key).length = 16 * (nk + 7) := by rw [keySchedule, wordsToBytes_length, hwords]; omega
  exact ⟨hbytes, hkey ▸ keySchedule_take_key hkey, fun i hi => take_drop_wordsToBytes (hwords ▸ hi)⟩

/-! ### The round constants (R92) -/

theorem bytesBe32_rcon_succ : ∀ k < 10, bytesBe32 (rcon (k + 1)) = [xtime^[k] 0x01, 0x00, 0x00, 0x00] := by decide

/-- With at least four key words, an index of a later word divided by `nk` is one of 1 to 10. -/
theorem round_index_bounds {nk i : Nat} (hnk : 4 ≤ nk) (hi : nk ≤ i) (hlt : i < 4 * (nk + 7)) :
    1 ≤ i / nk ∧ i / nk ≤ 10 :=
  ⟨Nat.div_pos hi (by omega), Nat.le_of_lt_succ (Nat.div_lt_of_lt_mul (by omega))⟩

/-- Settles O23: the ten constants are read off the table; the loop asks for entries `i div Nk` only, and each is one of 1 to 10. -/
theorem roundConstantsAndTheEntriesNeverRead : Obligations.RoundConstantsAndTheEntriesNeverRead := by
  refine ⟨fun j h1 h10 => ?_, fun rc key hlen hrc => ?_⟩
  · obtain ⟨k, rfl⟩ := Nat.exists_eq_add_of_le' h1
    exact bytesBe32_rcon_succ k h10
  · refine expandLoop_congr fun i hi hlt => ?_
    rw [keyWords_length] at hi hlt
    obtain ⟨h1, h10⟩ := round_index_bounds (by omega) hi (by omega)
    exact hrc _ h1 h10

/-! ### EXPAND_KEY (R95) -/

/-- Everything EXPAND_KEY of a legal key does. -/
theorem execExpandKey_of_length {p : List Byte} {k : KeySize} (hk : k ≠ .noKey) (hp : p.length = keyBytes k) (s : State) :
    execExpandKey p s =
      respondOk (keySchedule p) { s with key := { ksize := k, ks := overlay s.key.ks (keySchedule p) } } := by
  simp only [execExpandKey, keyOperand_eq_some.mpr ⟨hk, hp⟩, overlay_keySchedule_take _ hk hp]

/-- Settles O20: a legal length selects its key size, and the schedule fits the store; any other length ends at the check. -/
theorem expandKeyLoadsTheKeySlot : Obligations.ExpandKeyLoadsTheKeySlot := by
  intro s p
  refine ⟨rfl, fun k hk hp => ?_, fun h16 h24 h32 => ?_⟩
  · have hlen : (keySchedule p).length = 16 * (p.length / 4 + 7) := hp ▸ keySchedule_length hk hp
    refine ⟨overlay s.key.ks (keySchedule p), ?_, ?_⟩
    · rw [overlay_toList _ _ (keySchedule_length hk hp ▸ scheduleBytes_le k), hlen]
    · rw [exec, execExpandKey_of_length hk hp, respondOk_spec, hlen]
  · obtain ⟨-, h⟩ | ⟨k, hk, hp, -⟩ := execExpandKey_cases p s
    · exact h
    · have := keyBytes_cases hk
      omega

end Sys2Proof.Machine
end

section
/-! PROOFS. Family 43_block_cipher: the transforms on the bytes of a block (R100 to R108), the two round sequences (R109, R110), that
they undo each other (R114), and ENCRYPT_BLOCK and DECRYPT_BLOCK (R111 to R116). A product of matrices by columns is again a product
by columns, so that InvMixColumns undoes MixColumns is one equation between matrices; `InvCipher` is the steps that undo the rounds
of `Cipher`, each moved by one half round. -/

namespace Sys2Proof.Machine

/-! ### The transforms on linear bytes (R100 to R105, R108) -/

/-- Byte `4c + r` of what is stored is row `r`, column `c`. -/
theorem storeState_getElem (st : Matrix4) (r c : Fin 4) : (storeState st)[4 * c.val + r.val] = cell st r c := by
  rw [← cell_loadState, loadState_storeState]

/-- Every place of a block is `4c + r` for some row `r` and column `c`. -/
theorem exists_row_column (i : Fin 16) : ∃ r c : Fin 4, i.val = 4 * c.val + r.val :=
  ⟨⟨i.val % 4, by omega⟩, ⟨i.val / 4, by omega⟩, (Nat.div_add_mod i.val 4).symm⟩

/-- Settles O26: a stored byte is a cell, a cell of each transform is given by a cell of the matrix before it, and that is a loaded
byte. -/
theorem byteTransformsOnLinearBytes : Obligations.ByteTransformsOnLinearBytes := by
  intro b
  refine ⟨storeState_loadState b, cell_loadState b, fun i => ?_, fun i => ?_, fun r c => ?_, fun r c => ?_, fun ks k i => ?_⟩
  · obtain ⟨r, c, hi⟩ := exists_row_column i
    simp only [hi, storeState_getElem, cell_subBytes, cell_loadState]
  · obtain ⟨r, c, hi⟩ := exists_row_column i
    simp only [hi, storeState_getElem, cell_invSubBytes, cell_loadState]
  · simp only [storeState_getElem, cell_shiftRows, cell_loadState, Fin.val_add]
  · simp only [storeState_getElem, cell_invShiftRows, cell_loadState, Fin.val_sub, Nat.add_comm c.val]
  · obtain ⟨r, c, hi⟩ := exists_row_column i
    have hks : byteAt ks.toList (16 * k.val + 4 * c.val + r.val) = ks[16 * k.val + (4 * c.val + r.val)] := by
      rw [byteAt_eq_getElem (by rw [Vector.length_toList]; omega), Vector.getElem_toList]
      simp only [Nat.add_assoc]
    simp only [hi, storeState_getElem, cell_addRoundKey, cell_loadState, hks]

/-! ### MixColumns and its inverse (R106, R107) -/

theorem zero_gmul (b : Byte) : gmul 0 b = 0 := (xorAdditive_gmul_left b).map_zero

/-- Row `r` of a product by columns, for the four entries of row `r` of the left matrix. -/
theorem cell_mulColumns_of_row {m : Matrix4} {r : Fin 4} {a0 a1 a2 a3 : Byte} (h : m[r.val] = #v[a0, a1, a2, a3])
    (st : Matrix4) (c : Fin 4) :
    cell (mulColumns m st) r c =
      gmul a0 (cell st 0 c) ^^^ gmul a1 (cell st 1 c) ^^^ gmul a2 (cell st 2 c) ^^^ gmul a3 (cell st 3 c) := by
  have hcell (j : Fin 4) : cell m r j = #v[a0, a1, a2, a3][j.val] := by rw [cell, h]
  rw [cell_mulColumns, hcell 0, hcell 1, hcell 2, hcell 3]
  rfl

/-- Settles O27: the rows of the two matrices, with the products by 01 left out. -/
theorem mixColumnsWrittenOut : Obligations.MixColumnsWrittenOut := by
  intro st c
  refine ⟨?_, ?_, ?_, ?_, cell_mulColumns_of_row rfl st c, cell_mulColumns_of_row rfl st c,
    cell_mulColumns_of_row rfl st c, cell_mulColumns_of_row rfl st c⟩
  all_goals exact (cell_mulColumns_of_row rfl st c).trans (by rw [one_gmul, one_gmul])

/-- `mulColumns` is the product of matrices over the field, and so is associative. -/
theorem mulColumns_assoc (a b st : Matrix4) : mulColumns a (mulColumns b st) = mulColumns (mulColumns a b) st := by
  apply matrix_ext
  intro r c
  simp only [cell_mulColumns, gmul_xor, xor_gmul, gmul_assoc]
  ac_rfl

/-- The matrix with 01 on its diagonal and 00 elsewhere. -/
def identityMatrix : Matrix4 := matrixOf fun r c => if r = c then 1 else 0

theorem ite_one_zero_gmul (P : Prop) [Decidable P] (b : Byte) : gmul (if P then 1 else 0) b = if P then b else 0 := by
  split
  · exact one_gmul b
  · exact zero_gmul b

theorem mulColumns_identityMatrix (st : Matrix4) : mulColumns identityMatrix st = st := by
  apply matrix_ext
  intro r c
  simp only [cell_mulColumns, identityMatrix, cell_matrixOf, ite_one_zero_gmul]
  fin_cases r <;> simp

theorem mulColumns_invMixMatrix_mixMatrix : mulColumns invMixMatrix mixMatrix = identityMatrix := by decide

theorem mulColumns_mixMatrix_invMixMatrix : mulColumns mixMatrix invMixMatrix = identityMatrix := by decide

/-! ### Each transform is undone by its inverse (R114) -/

theorem invSubBytes_subBytes (st : Matrix4) : invSubBytes (subBytes st) = st :=
  matrix_ext fun r c => by rw [cell_invSubBytes, cell_subBytes, isbox_sbox]

theorem subBytes_invSubBytes (st : Matrix4) : subBytes (invSubBytes st) = st :=
  matrix_ext fun r c => by rw [cell_subBytes, cell_invSubBytes, sbox_isbox]

theorem invShiftRows_shiftRows (st : Matrix4) : invShiftRows (shiftRows st) = st :=
  matrix_ext fun r c => by rw [cell_invShiftRows, cell_shiftRows, sub_add_cancel]

theorem shiftRows_invShiftRows (st : Matrix4) : shiftRows (invShiftRows st) = st :=
  matrix_ext fun r c => by rw [cell_shiftRows, cell_invShiftRows, add_sub_cancel_right]

theorem invShiftRows_invSubBytes (st : Matrix4) : invShiftRows (invSubBytes st) = invSubBytes (invShiftRows st) :=
  matrix_ext fun r c => by rw [cell_invShiftRows, cell_invSubBytes, cell_invSubBytes, cell_invShiftRows]

theorem invMixColumns_mixColumns (st : Matrix4) : invMixColumns (mixColumns st) = st := by
  rw [invMixColumns, mixColumns, mulColumns_assoc, mulColumns_invMixMatrix_mixMatrix, mulColumns_identityMatrix]

theorem mixColumns_invMixColumns (st : Matrix4) : mixColumns (invMixColumns st) = st := by
  rw [invMixColumns, mixColumns, mulColumns_assoc, mulColumns_mixMatrix_invMixMatrix, mulColumns_identityMatrix]

theorem addRoundKey_addRoundKey (ks : Vector Byte 240) (k : Nat) (st : Matrix4) :
    addRoundKey ks k (addRoundKey ks k st) = st :=
  matrix_ext fun r c => by
    rw [cell_addRoundKey, cell_addRoundKey, BitVec.xor_assoc, BitVec.xor_self, BitVec.xor_zero]

/-! ### The round sequences (R109, R110) -/

/-- States `S 0, S 1, ...`, each made from the one before it by its round, end in the state the rounds lead to. -/
theorem foldl_rounds {α : Type} {f : α → Nat → α} {S : Nat → α} {n : Nat}
    (h : ∀ k, 1 ≤ k → k ≤ n → S k = f (S (k - 1)) k) : (List.range' 1 n).foldl f (S 0) = S n := by
  induction n with
  | zero => rfl
  | succ n ih =>
    rw [List.range'_1_concat, List.foldl_concat, ih fun k h1 hn => h k h1 (by omega), Nat.add_comm 1 n]
    exact (h (n + 1) (by omega) le_rfl).symm

/-- The same for states counted down. -/
theorem foldl_reverse_rounds {α : Type} {f : α → Nat → α} {S : Nat → α} {n : Nat}
    (h : ∀ k, 1 ≤ k → k ≤ n → S k = f (S (k + 1)) k) : (List.range' 1 n).reverse.foldl f (S (n + 1)) = S 1 := by
  induction n with
  | zero => rfl
  | succ n ih =>
    rw [List.range'_1_concat, List.reverse_concat, List.foldl_cons, Nat.add_comm 1 n,
      ← h (n + 1) (by omega) le_rfl]
    exact ih fun k h1 hn => h k h1 (by omega)

/-- Settles O28: the given states are those the rounds 1 to R-1 lead through. -/
theorem cipherFollowsItsRoundSequence : Obligations.CipherFollowsItsRoundSequence := by
  intro ks R st S _ h0 hS
  have hrounds : (List.range' 1 (R - 1)).foldl (cipherRound ks) (S 0) = S (R - 1) := foldl_rounds hS
  rw [cipher, ← h0, hrounds]

/-- Settles O29: the given states are those the rounds R-1 to 1 lead through. -/
theorem invCipherFollowsItsRoundSequence : Obligations.InvCipherFollowsItsRoundSequence := by
  intro ks R st S hR hlast hS
  have hrounds : (List.range' 1 (R - 1)).reverse.foldl (invCipherRound ks) (S (R - 1 + 1)) = S 1 :=
    foldl_reverse_rounds hS
  rw [Nat.sub_add_cancel hR, hlast] at hrounds
  rw [invCipher, hrounds]

/-! ### The round sequences undo each other (R114) -/

/-- Steps undone by other steps are undone, one after the other, in reverse order. -/
theorem foldl_reverse_foldl {α β : Type} {f g : α → β → α} (h : ∀ s k, g (f s k) k = s) (l : List β) (s : α) :
    l.reverse.foldl g (l.foldl f s) = s := by
  induction l generalizing s with
  | nil => rfl
  | cons k l ih => rw [List.reverse_cons, List.foldl_concat, List.foldl_cons, ih, h]

/-- The half of a round of `Cipher` that reads no key. -/
def subShift (st : Matrix4) : Matrix4 := shiftRows (subBytes st)

/-- The half of a round of `InvCipher` that reads no key. -/
def invShiftSub (st : Matrix4) : Matrix4 := invSubBytes (invShiftRows st)

/-- The step that undoes a full round of `Cipher`: a full round of `InvCipher` with its two halves in the other order. -/
def undoCipherRound (ks : Vector Byte 240) (st : Matrix4) (k : Nat) : Matrix4 :=
  invShiftSub (invMixColumns (addRoundKey ks k st))

theorem invShiftSub_subShift (st : Matrix4) : invShiftSub (subShift st) = st := by
  rw [invShiftSub, subShift, invShiftRows_shiftRows, invSubBytes_subBytes]

theorem subShift_invShiftSub (st : Matrix4) : subShift (invShiftSub st) = st := by
  rw [invShiftSub, subShift, subBytes_invSubBytes, shiftRows_invShiftRows]

theorem undoCipherRound_cipherRound (ks : Vector Byte 240) (st : Matrix4) (k : Nat) :
    undoCipherRound ks (cipherRound ks st k) k = st := by
  rw [undoCipherRound, cipherRound, addRoundKey_addRoundKey, invMixColumns_mixColumns]
  exact invShiftSub_subShift st

theorem cipherRound_undoCipherRound (ks : Vector Byte 240) (st : Matrix4) (k : Nat) :
    cipherRound ks (undoCipherRound ks st k) k = st := by
  rw [cipherRound, ← subShift, undoCipherRound, subShift_invShiftSub, mixColumns_invMixColumns, addRoundKey_addRoundKey]

theorem cipher_eq (ks : Vector Byte 240) (R : Nat) (st : Matrix4) :
    cipher ks R st =
      addRoundKey ks R (subShift ((List.range' 1 (R - 1)).foldl (cipherRound ks) (addRoundKey ks 0 st))) := rfl

/-- `InvCipher` takes the last half round of `Cipher` off, then undoes the full rounds: its own rounds are the same steps, each begun
one half round earlier. -/
theorem invCipher_eq (ks : Vector Byte 240) (R : Nat) (st : Matrix4) :
    invCipher ks R st =
      addRoundKey ks 0
        ((List.range' 1 (R - 1)).reverse.foldl (undoCipherRound ks) (invShiftSub (addRoundKey ks R st))) := by
  rw [List.foldl_hom invShiftSub (g₁ := invCipherRound ks) fun _ _ => rfl]
  rfl

theorem invCipher_cipher (ks : Vector Byte 240) (R : Nat) (st : Matrix4) : invCipher ks R (cipher ks R st) = st := by
  rw [invCipher_eq, cipher_eq, addRoundKey_addRoundKey, invShiftSub_subShift,
    foldl_reverse_foldl (undoCipherRound_cipherRound ks), addRoundKey_addRoundKey]

theorem cipher_invCipher (ks : Vector Byte 240) (R : Nat) (st : Matrix4) : cipher ks R (invCipher ks R st) = st := by
  have hrounds := foldl_reverse_foldl (cipherRound_undoCipherRound ks) (List.range' 1 (R - 1)).reverse
  rw [List.reverse_reverse] at hrounds
  rw [cipher_eq, invCipher_eq, addRoundKey_addRoundKey, hrounds, subShift_invShiftSub, addRoundKey_addRoundKey]

/-- Settles O30: transform by transform; the two sequences are made of steps that undo each other. -/
theorem inverseTransformsUndoTheTransforms : Obligations.InverseTransformsUndoTheTransforms := fun st ks k =>
  ⟨invSubBytes_subBytes st, subBytes_invSubBytes st, invShiftRows_shiftRows st, shiftRows_invShiftRows st,
    invShiftRows_invSubBytes st, invMixColumns_mixColumns st, mixColumns_invMixColumns st, addRoundKey_addRoundKey ks k st,
    invCipher_cipher ks k st, cipher_invCipher ks k st⟩

/-! ### ENCRYPT_BLOCK and DECRYPT_BLOCK (R111, R112) -/

theorem packet_block (op : Byte) (b : Vector Byte 16) : packet op b.toList = op :: 0x10 :: b.toList := by
  rw [packet, Vector.length_toList]
  rfl

section
variable (f : KeySlot → Vector Byte 16 → Vector Byte 16) {p : List Byte} {s : State}

/-- Everything a cipher command does with a key loaded and a whole block. -/
theorem execCipher_of_block (hk : s.key.ksize ≠ .noKey) (b : Vector Byte 16) :
    execCipher f b.toList s = .next { s with output := s.output ++ 0x00 :: 0x10 :: (f s.key b).toList } := by
  rw [execCipher, blockOperand_eq_some.mpr rfl]
  refine (if_neg hk).trans ?_
  rw [respondOk_spec, Vector.length_toList]
  rfl

theorem execCipher_of_noKey (hp : p.length = 16) (hk : s.key.ksize = .noKey) :
    execCipher f p s = .next { s with output := s.output ++ [0x01, 0x00] } := by
  obtain ⟨b, rfl⟩ : ∃ b : Vector Byte 16, p = b.toList := ⟨⟨⟨p⟩, hp⟩, rfl⟩
  rw [execCipher, blockOperand_eq_some.mpr rfl]
  exact if_pos hk

theorem execCipher_of_length_ne (hp : p.length ≠ 16) :
    execCipher f p s = .next { s with output := s.output ++ [0x02, 0x00] } := by
  rw [execCipher, blockOperand_eq_none.mpr hp]
  rfl

end

/-- Settles O24: the three paths of a cipher command, for `Cipher`. -/
theorem encryptBlockAnswersTheCiphertext : Obligations.EncryptBlockAnswersTheCiphertext := fun _ =>
  ⟨fun b => ⟨packet_block 0x05 b, fun hk => execCipher_of_block encryptWith hk b⟩,
    fun _ => execCipher_of_noKey encryptWith, fun _ => execCipher_of_length_ne encryptWith⟩

/-- Settles O25: the three paths of a cipher command, for `InvCipher`. -/
theorem decryptBlockAnswersThePlaintext : Obligations.DecryptBlockAnswersThePlaintext := fun _ =>
  ⟨fun b => ⟨packet_block 0x06 b, fun hk => execCipher_of_block decryptWith hk b⟩,
    fun _ => execCipher_of_noKey decryptWith, fun _ => execCipher_of_length_ne decryptWith⟩

/-! ### The round trip (R113) and no chaining (R116) -/

theorem decryptWith_encryptWith (k : KeySlot) (b : Vector Byte 16) : decryptWith k (encryptWith k b) = b := by
  rw [decryptWith, encryptWith, loadState_storeState, invCipher_cipher, storeState_loadState]

theorem encryptWith_decryptWith (k : KeySlot) (b : Vector Byte 16) : encryptWith k (decryptWith k b) = b := by
  rw [encryptWith, decryptWith, loadState_storeState, cipher_invCipher, storeState_loadState]

/-- With a key loaded, what one cipher command answers the other takes back. -/
theorem execCipher_roundTrip (f g : KeySlot → Vector Byte 16 → Vector Byte 16) {t : State} (hk : t.key.ksize ≠ .noKey)
    (hgf : ∀ b, g t.key (f t.key b) = b) (b : Vector Byte 16) :
    ∃ c : Vector Byte 16, ∀ out : List Byte,
      execCipher f b.toList { t with output := out } = .next { t with output := out ++ 0x00 :: 0x10 :: c.toList } ∧
      execCipher g c.toList { t with output := out } = .next { t with output := out ++ 0x00 :: 0x10 :: b.toList } := by
  refine ⟨f t.key b, fun out => ⟨execCipher_of_block f (s := { t with output := out }) hk b, ?_⟩⟩
  rw [execCipher_of_block g (s := { t with output := out }) hk, hgf]

/-- Settles O31: EXPAND_KEY of a legal key loads the key slot, and under any key slot the two answers undo each other. -/
theorem encryptThenDecryptReturnsTheBlock : Obligations.EncryptThenDecryptReturnsTheBlock := by
  intro s key hlen
  obtain ⟨hbad, -⟩ | ⟨k, hk, -, he⟩ := execExpandKey_cases key s
  · omega
  · exact ⟨_, he, fun p =>
      ⟨execCipher_roundTrip encryptWith decryptWith hk (decryptWith_encryptWith _) p,
        execCipher_roundTrip decryptWith encryptWith hk (encryptWith_decryptWith _) p⟩⟩

/-- A command that the key slot decides and that does not write it adds the same response in all states with that key slot. -/
theorem exec_answer_of_keyEffect {i : Instr} {k k' : KeySlot} {r : List Byte} (h : KeyEffect i k k' r) (hi : ¬ WritesKey i)
    {s : State} (hs : s.key = k) : exec i s = .next { s with output := s.output ++ r } := by
  have he := h s hs
  obtain ⟨-, hkey, -⟩ := exec_frame he
  rwa [show k' = s.key from hkey hi] at he

/-- Settles O32: the effect of a cipher command is given by the key slot, and it keeps every store. -/
theorem cipherResponseDependsOnKeySlotAndPayloadAlone : Obligations.CipherResponseDependsOnKeySlotAndPayloadAlone := by
  intro s s' p hkey
  obtain ⟨_, r, he⟩ := cipher_keyEffect encryptWith (exec_encryptBlock p) s.key
  obtain ⟨_, r', hd⟩ := cipher_keyEffect decryptWith (exec_decryptBlock p) s.key
  exact ⟨⟨r, exec_answer_of_keyEffect he id rfl, exec_answer_of_keyEffect he id hkey.symm⟩,
    ⟨r', exec_answer_of_keyEffect hd id rfl, exec_answer_of_keyEffect hd id hkey.symm⟩⟩

end Sys2Proof.Machine
end

section
/-! PROOFS. Family 44_sha256: the functions and constants of SHA-256 (R120 to R123), the message schedule and the compression step
(R124 to R127), the buffering (R128), the three digest commands (R130 to R133) and what a run of them answers (R135, R136). -/

namespace Sys2Proof.Machine

/-! ### The six functions, bit by bit (R120, R121) -/

theorem getLsbD_rotateRight_word (x : Word) {r i : Nat} (hr : r < 32) (hi : i < 32) :
    (x.rotateRight r).getLsbD i = x.getLsbD ((i + r) % 32) := by
  rw [BitVec.getLsbD_rotateRight, Nat.mod_eq_of_lt hr]
  by_cases hwrap : i < 32 - r
  · simp [hwrap, Nat.mod_eq_of_lt (show i + r < 32 by omega), Nat.add_comm r]
  · simp [hwrap, hi, show (i + r) % 32 = i - (32 - r) by omega]

theorem getLsbD_shiftRight_word (x : Word) (n i : Nat) :
    (x >>> n).getLsbD i = (decide (i + n < 32) && x.getLsbD (i + n)) := by
  by_cases h : i + n < 32
  · simp [h, Nat.add_comm n]
  · simp [h, Nat.add_comm n, BitVec.getLsbD_of_ge x (i + n) (by omega)]

theorem getLsbD_ch (x y z : Word) {i : Nat} (hi : i < 32) :
    (ch x y z).getLsbD i = if x.getLsbD i then y.getLsbD i else z.getLsbD i := by
  rw [ch, BitVec.getLsbD_xor, BitVec.getLsbD_and, BitVec.getLsbD_and, BitVec.getLsbD_not]
  cases x.getLsbD i <;> simp [hi]

theorem getLsbD_maj (x y z : Word) (i : Nat) :
    (maj x y z).getLsbD i =
      ((x.getLsbD i && y.getLsbD i) || (x.getLsbD i && z.getLsbD i) || (y.getLsbD i && z.getLsbD i)) := by
  rw [maj, BitVec.getLsbD_xor, BitVec.getLsbD_xor, BitVec.getLsbD_and, BitVec.getLsbD_and, BitVec.getLsbD_and]
  cases x.getLsbD i <;> cases y.getLsbD i <;> cases z.getLsbD i <;> rfl

/-- Settles O33: the bits of a rotation and of a shift, for each amount. -/
theorem shaFunctionsBitByBit : Obligations.ShaFunctionsBitByBit := by
  intro x y z i hi
  have hrot {r : Nat} (hr : r < 32) := getLsbD_rotateRight_word x hr hi
  refine ⟨getLsbD_ch x y z hi, getLsbD_maj x y z i, ?_, ?_, ?_, ?_⟩
  · rw [bigSigma0, BitVec.getLsbD_xor, BitVec.getLsbD_xor, hrot, hrot, hrot] <;> decide
  · rw [bigSigma1, BitVec.getLsbD_xor, BitVec.getLsbD_xor, hrot, hrot, hrot] <;> decide
  · rw [smallSigma0, BitVec.getLsbD_xor, BitVec.getLsbD_xor, hrot, hrot, getLsbD_shiftRight_word] <;> decide
  · rw [smallSigma1, BitVec.getLsbD_xor, BitVec.getLsbD_xor, hrot, hrot, getLsbD_shiftRight_word] <;> decide

/-! ### The message schedule (R124) -/

/-- The word of index `i` that the recurrence makes from the words before it. -/
def scheduleWord (w : List Word) (i : Nat) : Word :=
  smallSigma1 (wordAt w (i - 2)) + wordAt w (i - 7) + smallSigma0 (wordAt w (i - 15)) + wordAt w (i - 16)

theorem scheduleNext_eq (w : List Word) : scheduleNext w = w ++ [scheduleWord w w.length] := rfl

theorem scheduleNext_length (w : List Word) : (scheduleNext w).length = w.length + 1 := by
  rw [scheduleNext_eq, List.length_append, List.length_singleton]

theorem scheduleExtend_length (n : Nat) (w : List Word) : (scheduleExtend n w).length = w.length + n := by
  induction n generalizing w with
  | zero => rfl
  | succ n ih => rw [scheduleExtend, ih, scheduleNext_length, Nat.add_right_comm, Nat.add_assoc]

/-- The words that are there already stay as they are. -/
theorem scheduleExtend_prefix (n : Nat) (w : List Word) : w <+: scheduleExtend n w := by
  induction n generalizing w with
  | zero => exact List.prefix_rfl
  | succ n ih => exact (List.prefix_append w _).trans (ih (scheduleNext w))

/-- The recurrence reads words before the one it makes. -/
theorem scheduleWord_of_prefix {w w' : List Word} (h : w <+: w') {i : Nat} (h16 : 16 ≤ i) (hi : i ≤ w.length) :
    scheduleWord w' i = scheduleWord w i := by
  have hword {k : Nat} (h0 : 0 < k) : wordAt w' (i - k) = wordAt w (i - k) := wordAt_of_prefix h (by omega)
  rw [scheduleWord, hword, hword, hword, hword, scheduleWord] <;> decide

theorem wordAt_scheduleNext_self (w : List Word) : wordAt (scheduleNext w) w.length = scheduleWord w w.length := by
  simp [scheduleNext_eq, wordAt]

/-- Every word appended satisfies the recurrence in the list the loop ends with. -/
theorem wordAt_scheduleExtend {n i : Nat} {w : List Word} (h16 : 16 ≤ w.length) (hi : w.length ≤ i)
    (hn : i < w.length + n) : wordAt (scheduleExtend n w) i = scheduleWord (scheduleExtend n w) i := by
  induction n generalizing w with
  | zero => omega
  | succ n ih =>
    have hlen := scheduleNext_length w
    obtain rfl | hlt := hi.eq_or_lt
    · rw [scheduleWord_of_prefix (scheduleExtend_prefix (n + 1) w) h16 le_rfl, ← wordAt_scheduleNext_self]
      exact wordAt_of_prefix (scheduleExtend_prefix n (scheduleNext w)) (by omega)
    · exact ih (by omega) (by omega) (by omega)

theorem messageSchedule_length (block : List Byte) : (messageSchedule block).length = 64 := by
  rw [messageSchedule, scheduleExtend_length, List.length_map, List.length_range]

theorem wordAt_messageSchedule_of_lt (block : List Byte) {i : Nat} (hi : i < 16) :
    wordAt (messageSchedule block) i = be32At block i := by
  rw [messageSchedule, wordAt_of_prefix (scheduleExtend_prefix _ _) (by simpa using hi)]
  simp [wordAt, hi]

theorem wordAt_messageSchedule_of_ge (block : List Byte) {i : Nat} (h16 : 16 ≤ i) (hi : i < 64) :
    wordAt (messageSchedule block) i = scheduleWord (messageSchedule block) i :=
  wordAt_scheduleExtend (by simp) (by simpa using h16) (by simpa using hi)

/-- Settles O34: the first 16 words are read off the block, each later one is made by the recurrence. -/
theorem messageScheduleFollowsTheRecurrence : Obligations.MessageScheduleFollowsTheRecurrence := fun block _ =>
  ⟨messageSchedule_length block, fun _ hi => wordAt_messageSchedule_of_lt block hi,
    fun _ h16 hi => wordAt_messageSchedule_of_ge block h16 hi⟩

/-! ### The compression step (R122, R125, R126) -/

/-- Values `V 0, V 1, ...`, each made from the one before it and the next item of a list, end in the value the list is folded
to. -/
theorem foldl_eq_of_steps {α β : Type} {f : α → β → α} {l : List β} {V : Nat → α}
    (h : ∀ i (hi : i < l.length), V (i + 1) = f (V i) l[i]) : l.foldl f (V 0) = V l.length := by
  induction l generalizing V with
  | nil => rfl
  | cons x l ih =>
    have hfirst : V 1 = f (V 0) x := h 0 (Nat.succ_pos _)
    rw [List.foldl_cons, ← hfirst]
    exact ih (V := fun i => V (i + 1)) fun i hi => h (i + 1) (Nat.succ_lt_succ hi)

theorem shaK_length : shaK.length = 64 := rfl

theorem wordAt_eq_getElem {ws : List Word} {i : Nat} (h : i < ws.length) : wordAt ws i = ws[i] := by
  simp [wordAt, h]

/-- The 64 rounds, each with its own constant and its own word of the schedule. -/
theorem shaRounds_eq_of_steps {w : List Word} (hw : w.length = 64) {V : Nat → WorkingVars}
    (h : ∀ i < 64, V (i + 1) = shaRound (V i) (wordAt shaK i, wordAt w i)) : shaRounds w (V 0) = V 64 := by
  have hlen : (shaK.zip w).length = 64 := by rw [List.length_zip, shaK_length, hw, Nat.min_self]
  rw [shaRounds, ← hlen]
  refine foldl_eq_of_steps fun i hi => ?_
  have hi64 : i < 64 := hlen ▸ hi
  rw [h i hi64, List.getElem_zip, wordAt_eq_getElem (shaK_length ▸ hi64), wordAt_eq_getElem (hw ▸ hi64)]

/-- Settles O35: the given variables are those the rounds lead through, and the last of them are fed forward. -/
theorem compressionIsSixtyFourRoundsAndFeedForward : Obligations.CompressionIsSixtyFourRoundsAndFeedForward := by
  refine ⟨rfl, fun h block V h0 hround => ?_⟩
  have hV : shaRounds (messageSchedule block) (V 0) = V 64 :=
    shaRounds_eq_of_steps (messageSchedule_length block) fun i hi => by rw [hround i hi, shaRound]
  rw [compressBlock, loadVars, ← h0, hV, feedForward]

/-! ### Buffering (R128) -/

/-- Settles O36: the buffer and the counter at any fill, the index and the hash words below 63 and at 63. -/
theorem appendByteStoresCountsAndCompresses : Obligations.AppendByteStoresCountsAndCompresses := by
  intro d x hlt
  have hidx := appendByte_idx d x hlt
  refine ⟨?_, appendByte_bitcnt d x, appendByte_phase d x, fun h62 => ⟨by omega, ?_⟩, fun h63 => ⟨by omega, ?_⟩⟩
  · rw [appendByte_buf, Vector.toList_setIfInBounds]
  · rw [appendByte_h, if_neg (by omega)]
  · rw [appendByte_h, if_pos (by omega), appendByte_buf]

theorem appendBytes_idx (d : DigestContext) (xs : List Byte) (h : d.idx.val < 64) :
    (appendBytes d xs).idx.val = (d.idx.val + xs.length) % 64 := by
  induction xs generalizing d with
  | nil => exact (Nat.mod_eq_of_lt h).symm
  | cons x xs ih =>
    have hidx := appendByte_idx d x h
    rw [appendBytes_cons, ih _ (by omega), List.length_cons]
    omega

theorem appendBytes_bitcnt (d : DigestContext) (xs : List Byte) :
    (appendBytes d xs).bitcnt = d.bitcnt + BitVec.ofNat 64 (8 * xs.length) := by
  induction xs generalizing d with
  | nil => exact (BitVec.add_zero d.bitcnt).symm
  | cons x xs ih =>
    rw [appendBytes_cons, ih, appendByte_bitcnt, List.length_cons, Nat.mul_succ, Nat.add_comm, BitVec.ofNat_add,
      BitVec.add_assoc]
    rfl

/-! ### The digest commands (R131 to R133) -/

theorem exec_shaStart_of_payload {p : List Byte} (hp : p.length ≠ 0) (s : State) :
    exec (.shaStart p) s = raise .illegalCommand s := by
  obtain ⟨-, h⟩ | ⟨rfl, -⟩ := execShaStart_cases p s
  · exact h
  · exact absurd rfl hp

theorem exec_shaAdd_of_not_accumulating {s : State} (p : List Byte) (h : s.digest.phase ≠ .accumulating) :
    exec (.shaAdd p) s = raise .digestMisuse s := by
  simpa [exec, h] using execShaAdd_cases p s

theorem exec_shaFinish_of_not_accumulating {s : State} (h : s.digest.phase ≠ .accumulating) :
    exec (.shaFinish []) s = raise .digestMisuse s := by
  simpa [exec, h] using execShaFinish_cases [] s

theorem exec_shaFinish_of_payload {p : List Byte} (hp : p.length ≠ 0) (s : State) :
    exec (.shaFinish p) s = raise .illegalCommand s := by
  obtain ⟨-, h⟩ | ⟨rfl, -⟩ | ⟨rfl, -⟩ := execShaFinish_cases p s
  · exact h
  · exact absurd rfl hp
  · exact absurd rfl hp

/-- Settles O37: without a payload SHA_START is performed in every phase, with one it ends at the check. -/
theorem shaStartBeginsANewDigest : Obligations.ShaStartBeginsANewDigest := fun s =>
  ⟨rfl, rfl, fun _ hp => exec_shaStart_of_payload hp s⟩

/-- Settles O38: the index and the counter grow with each byte of the payload. -/
theorem shaAddAppendsThePayload : Obligations.ShaAddAppendsThePayload := fun s p =>
  ⟨rfl,
    fun hphase hlt =>
      ⟨exec_shaAdd_of_accumulating p hphase, (appendBytes_phase s.digest p).trans hphase, appendBytes_idx s.digest p hlt,
        appendBytes_bitcnt s.digest p⟩,
    exec_shaAdd_of_not_accumulating p⟩

/-- The eight hash words, one after the other (R129). -/
theorem digestBytes_eq (h : Vector Word 8) :
    digestBytes h = bytesBe32 h[0] ++ bytesBe32 h[1] ++ bytesBe32 h[2] ++ bytesBe32 h[3] ++
      bytesBe32 h[4] ++ bytesBe32 h[5] ++ bytesBe32 h[6] ++ bytesBe32 h[7] := by
  have hwords : h.toList = [h[0], h[1], h[2], h[3], h[4], h[5], h[6], h[7]] := by
    apply List.ext_getElem
    · simp
    · intro i hi _
      rw [Vector.length_toList] at hi
      interval_cases i <;> simp
  rw [digestBytes, hwords]
  simp [wordsToBytes]

/-- The response to SHA_FINISH: status `OK`, 32 bytes, and the hash words. -/
theorem responsePacket_digestBytes (h : Vector Word 8) : responsePacket .ok (digestBytes h) = 0x00 :: 0x20 :: digestBytes h := by
  rw [responsePacket, digestBytes_length]
  rfl

/-- Settles O39: with at most 55 bytes in the buffer the length goes into the same block, with more into a block after it. -/
theorem shaFinishPadsCompressesAndAnswers : Obligations.ShaFinishPadsCompressesAndAnswers := by
  intro s
  refine ⟨rfl, fun hphase hlt => ?_, exec_shaFinish_of_not_accumulating, fun p hp => exec_shaFinish_of_payload hp s⟩
  refine ⟨finishDigest s.digest, ?_, finishDigest_phase _, finishDigest_bitcnt _, ?_,
    fun h55 => ⟨finishDigest_buf_of_le h55, finishDigest_h_of_le h55⟩,
    fun h56 => ⟨finishDigest_buf_of_ge h56 hlt, finishDigest_h_of_ge h56 hlt⟩⟩
  · rw [exec_shaFinish_of_accumulating hphase, respondOk, emit, responsePacket_digestBytes, ← digestBytes_eq,
      List.append_assoc]
    rfl
  · rw [finishDigest_idx, Fin.val_ofNat, Nat.mod_eq_of_lt (by omega)]

/-! ### The phase machine (R130) -/

/-- The meaning that GF_MULTIPLY, SBOX_FWD and SBOX_INV share, over the operand their payload stands for and the result of one
(R74, R85, R86). -/
def execOperand {α : Type} (operand : Option α) (result : α → List Byte) (s : State) : Result :=
  match operand with
  | none => raise .illegalCommand s
  | some x => respondOk (result x) s

theorem exec_gfMultiply (p : List Byte) (s : State) :
    exec (.gfMultiply p) s = execOperand (pairOperand p) (fun ab => [gmul ab.1 ab.2]) s := by
  rw [exec, execGfMultiply]
  cases pairOperand p <;> rfl

theorem exec_sboxFwd (p : List Byte) (s : State) :
    exec (.sboxFwd p) s = execOperand (byteOperand p) (fun x => [sbox x]) s := by
  rw [exec, execSboxFwd]
  cases byteOperand p <;> rfl

theorem exec_sboxInv (p : List Byte) (s : State) :
    exec (.sboxInv p) s = execOperand (byteOperand p) (fun x => [isbox x]) s := by
  rw [exec, execSboxInv]
  cases byteOperand p <;> rfl

theorem operand_keyEffect {α : Type} {i : Instr} {operand : Option α} {result : α → List Byte}
    (h : ∀ s, exec i s = execOperand operand result s) (k : KeySlot) : ∃ k' r, KeyEffect i k k' r := by
  cases operand with
  | none => exact ⟨k, _, keyEffect_of_raise .illegalCommand fun s _ => h s⟩
  | some x => exact ⟨k, _, keyEffect_of_respondOk (result x) fun s hs => hs ▸ h s⟩

/-- What a command other than the three SHA commands does is given by the key slot. -/
theorem exec_keyEffect {i : Instr} (hi : ¬ WritesDigest i) (k : KeySlot) : ∃ k' r, KeyEffect i k k' r := by
  cases i with
  | gfMultiply p => exact operand_keyEffect (exec_gfMultiply p) k
  | sboxFwd p => exact operand_keyEffect (exec_sboxFwd p) k
  | sboxInv p => exact operand_keyEffect (exec_sboxInv p) k
  | expandKey p => exact expandKey_keyEffect p k
  | encryptBlock p => exact cipher_keyEffect encryptWith (exec_encryptBlock p) k
  | decryptBlock p => exact cipher_keyEffect decryptWith (exec_decryptBlock p) k
  | shaStart | shaAdd | shaFinish => exact absurd trivial hi

theorem not_writesDigest_of_ne {i : Instr} (h : ∀ p, i ≠ .shaStart p ∧ i ≠ .shaAdd p ∧ i ≠ .shaFinish p) :
    ¬ WritesDigest i := by
  cases i with
  | shaStart p => exact absurd rfl (h p).1
  | shaAdd p => exact absurd rfl (h p).2.1
  | shaFinish p => exact absurd rfl (h p).2.2
  | _ => exact id

/-- Settles O40: cell by cell; what the other commands do is given by the key slot. -/
theorem phaseMachineTable : Obligations.PhaseMachineTable := by
  intro s
  refine ⟨⟨_, rfl, rfl, rfl⟩, fun h p => ?_, fun h => ?_, fun h p => ?_, fun i t hi ht => ?_⟩
  · exact ⟨_, exec_shaAdd_of_accumulating p h, (appendBytes_phase s.digest p).trans h, rfl⟩
  · exact ⟨_, _, exec_shaFinish_of_accumulating h, finishDigest_phase _, digestBytes_length _, rfl⟩
  · exact ⟨exec_shaAdd_of_not_accumulating p h, exec_shaFinish_of_not_accumulating h⟩
  · obtain ⟨k, r, heff⟩ := exec_keyEffect (not_writesDigest_of_ne hi) s.key
    cases ht.symm.trans (heff s rfl)
    exact ⟨rfl, fun d => heff { s with digest := d } rfl⟩

/-! ### Runs of the digest commands (R135, R136) -/

/-- Settles O41: a run of SHA_ADD appends the concatenation of its payloads. -/
theorem splittingTheMessageChangesNothing : Obligations.SplittingTheMessageChangesNothing := by
  intro s xs ys h heq
  have hxs := runCommands_shaAdd xs [] h
  have hys := runCommands_shaAdd ys [] h
  rw [List.append_nil] at hxs hys
  exact ⟨appendBytes s.digest xs.flatten, hxs, heq ▸ hys⟩

theorem paddedMessage_length (m : List Byte) :
    (paddedMessage m).length = m.length + 9 + (64 - (m.length + 9) % 64) % 64 := by
  simp only [paddedMessage, List.length_append, List.length_singleton, List.length_replicate, bytesBe64_length]
  omega

/-- Settles O42: the number of zeros is the least that completes a block. -/
theorem paddedMessageIsTheLeastThatFits : Obligations.PaddedMessageIsTheLeastThatFits := by
  intro m
  rw [paddedMessage_length]
  omega

/-- Settles O43: the run of SHA_START, SHA_ADDs and SHA_FINISH leaves a finished context and answers the digest. -/
theorem digestIsSha256OfTheMessage : Obligations.DigestIsSha256OfTheMessage := fun s chunks =>
  ⟨_, runCommands_digest chunks s, finishDigest_phase _, rfl, rfl, rfl, rfl⟩

end Sys2Proof.Machine
end

section
/-! PROOFS. Family 60_exceptions: the status each command answers and the length of its result (R141, R144, R51, R54), what a
command that fails changes (R143), and the status that no command answers (R155). -/

namespace Sys2Proof.Machine

/-! ### How each command ends (R141) -/

/-- The command `i` ends at `s` as the causes table says: at a check, with the status of the table, or performed, with a result of
the length fixed by the command and changes to the two stores alone. -/
inductive EndsAsExpected (i : Instr) (s : State) : Prop
  /-- a check fails (R143) -/
  | failed (hne : expectedStatus s i ≠ .ok) (he : exec i s = raise (expectedStatus s i) s)
  /-- every check passes (R8) -/
  | performed {r : List Byte} {k : KeySlot} {d : DigestContext} (hok : expectedStatus s i = .ok)
      (he : exec i s = respondOk r { s with key := k, digest := d }) (hr : r.length = okResultLength i)

section
variable {i : Instr} {s : State} {p : List Byte}

theorem endsAsExpected_of_raise {st : Status} (hst : expectedStatus s i = st) (hne : st ≠ .ok) (he : exec i s = raise st s) :
    EndsAsExpected i s := by
  subst hst
  exact .failed hne he

theorem gfMultiply_endsAsExpected : EndsAsExpected (.gfMultiply p) s := by
  obtain ⟨hp, he⟩ | ⟨a, b, rfl, he⟩ := execGfMultiply_cases p s
  · exact endsAsExpected_of_raise (if_neg hp) (by decide) he
  · exact .performed rfl he rfl

theorem sboxFwd_endsAsExpected : EndsAsExpected (.sboxFwd p) s := by
  obtain ⟨hp, he⟩ | ⟨x, rfl, he⟩ := execSboxFwd_cases p s
  · exact endsAsExpected_of_raise (if_neg hp) (by decide) he
  · exact .performed rfl he rfl

theorem sboxInv_endsAsExpected : EndsAsExpected (.sboxInv p) s := by
  obtain ⟨hp, he⟩ | ⟨x, rfl, he⟩ := execSboxInv_cases p s
  · exact endsAsExpected_of_raise (if_neg hp) (by decide) he
  · exact .performed rfl he rfl

theorem expandKey_endsAsExpected : EndsAsExpected (.expandKey p) s := by
  obtain ⟨hbad, he⟩ | ⟨k, hk, hp, -⟩ := execExpandKey_cases p s
  · exact endsAsExpected_of_raise (if_neg (by omega)) (by decide) he
  · have hresult : (keySchedule p).length = 16 * (p.length / 4 + 7) := hp ▸ keySchedule_length hk hp
    exact .performed (if_pos (hp ▸ keyBytes_cases hk)) (execExpandKey_of_length hk hp s) hresult

/-- ENCRYPT_BLOCK and DECRYPT_BLOCK check the length before the key (R144). -/
theorem cipher_endsAsExpected {f : KeySlot → Vector Byte 16 → Vector Byte 16} (hexec : exec i s = execCipher f p s)
    (hstatus : expectedStatus s i =
      if p.length ≠ 16 then .invalidBlockLength else if s.key.ksize = .noKey then .invalidKeySize else .ok)
    (hresult : okResultLength i = 16) : EndsAsExpected i s := by
  by_cases hp : p.length = 16
  · have hchecked := hstatus.trans (if_neg (not_not.mpr hp))
    by_cases hk : s.key.ksize = .noKey
    · exact endsAsExpected_of_raise (hchecked.trans (if_pos hk)) (by decide) (hexec.trans (execCipher_of_noKey f hp hk))
    · obtain ⟨b, rfl⟩ : ∃ b : Vector Byte 16, p = b.toList := ⟨⟨⟨p⟩, hp⟩, rfl⟩
      refine .performed (hchecked.trans (if_neg hk)) (r := (f s.key b).toList) (k := s.key) (d := s.digest) ?_
        (Vector.length_toList.trans hresult.symm)
      simp [hexec, execCipher, blockOperand_eq_some.mpr rfl, hk]
  · exact endsAsExpected_of_raise (hstatus.trans (if_pos hp)) (by decide) (hexec.trans (execCipher_of_length_ne f hp))

theorem shaStart_endsAsExpected : EndsAsExpected (.shaStart p) s := by
  obtain ⟨hp, he⟩ | ⟨rfl, he⟩ := execShaStart_cases p s
  · exact endsAsExpected_of_raise (if_neg (mt List.length_eq_zero_iff.mp hp)) (by decide) he
  · exact .performed rfl he rfl

theorem shaAdd_endsAsExpected : EndsAsExpected (.shaAdd p) s := by
  obtain ⟨hphase, he⟩ | ⟨hphase, he⟩ := execShaAdd_cases p s
  · exact endsAsExpected_of_raise (if_neg hphase) (by decide) he
  · exact .performed (if_pos hphase) he rfl

/-- SHA_FINISH checks the length before the phase (R144). -/
theorem shaFinish_endsAsExpected : EndsAsExpected (.shaFinish p) s := by
  obtain ⟨hp, he⟩ | ⟨rfl, hphase, he⟩ | ⟨rfl, hphase, he⟩ := execShaFinish_cases p s
  · exact endsAsExpected_of_raise (if_pos (mt List.length_eq_zero_iff.mp hp)) (by decide) he
  · exact endsAsExpected_of_raise (if_neg hphase) (by decide) he
  · exact .performed (if_pos hphase) he (digestBytes_length _)

end

theorem exec_endsAsExpected (i : Instr) (s : State) : EndsAsExpected i s := by
  cases i with
  | gfMultiply p => exact gfMultiply_endsAsExpected
  | sboxFwd p => exact sboxFwd_endsAsExpected
  | sboxInv p => exact sboxInv_endsAsExpected
  | expandKey p => exact expandKey_endsAsExpected
  | encryptBlock p => exact cipher_endsAsExpected (exec_encryptBlock p s) rfl rfl
  | decryptBlock p => exact cipher_endsAsExpected (exec_decryptBlock p s) rfl rfl
  | shaStart p => exact shaStart_endsAsExpected
  | shaAdd p => exact shaAdd_endsAsExpected
  | shaFinish p => exact shaFinish_endsAsExpected

/-- Settles O46: a command ends at a check, with no result, or is performed. -/
theorem everyCommandAnswersItsStatusAndLength : Obligations.EveryCommandAnswersItsStatusAndLength := by
  intro i s
  cases exec_endsAsExpected i s with
  | failed hne he => exact ⟨_, [], he, rfl, fun hok => absurd hok hne, fun _ => rfl⟩
  | performed hok he hr => exact ⟨_, _, he, hok ▸ rfl, fun _ => hr, fun hne => absurd hok hne⟩

/-! ### A command that fails (R143) -/

theorem exec_of_status_ne_ok {i : Instr} {s : State} (hne : expectedStatus s i ≠ .ok) :
    exec i s = .next { s with output := s.output ++ [statusCode (expectedStatus s i), 0x00] } := by
  cases exec_endsAsExpected i s with
  | failed _ he => exact he
  | performed hok => exact absurd hok hne

/-- The status a command answers does not depend on what else is on the command stream. -/
theorem expectedStatus_input (i : Instr) (s : State) (rest : List HostEvent) :
    expectedStatus { s with input := rest } i = expectedStatus s i := by
  cases i <;> rfl

/-- Settles O47: such a command ends at a check, and a step performs it once its packet is taken. -/
theorem failedCommandsChangeNoStore : Obligations.FailedCommandsChangeNoStore := by
  intro i s hne
  refine ⟨exec_of_status_ne_ok hne, fun rest hwf hin hrest => ?_⟩
  have hstatus := expectedStatus_input i s rest
  rw [(stepRunsTheDecodedCommand s i rest hwf hin).1 hrest, exec_of_status_ne_ok (hstatus ▸ hne), hstatus]

/-! ### The reserved status (R155) -/

/-- Settles O48: of what a step can do, a command and the answer to an illegal packet add one response, waiting adds nothing, and
the reset event empties the stream. -/
theorem noStepAnswersAllocationFailure : Obligations.NoStepAnswersAllocationFailure := by
  intro s t h
  obtain ⟨i, rest, -, -, -, hs⟩ | ⟨_, _, rest, -, -, -, -, hs⟩ | ⟨-, hs⟩ | ⟨_, _, -, hs⟩ := step_cases s <;>
    rw [h] at hs
  · obtain ⟨t', st, r, he, -, hout, hst, hr⟩ := exec_answersOnce i { s with input := rest }
    cases hs.trans he
    exact .inr (.inr ⟨st, r, hst, hr, hout⟩)
  · cases hs
    exact .inr (.inr ⟨.illegalCommand, [], by decide, by decide, rfl⟩)
  · cases hs
    exact .inl rfl
  · cases hs
    exact .inr (.inl rfl)

end Sys2Proof.Machine
end

section
/-! PROOFS. Family 70_reset_and_hazards: the reset event drops a partial packet and abandons one being performed (R162), and leaves
no key, no digest in progress (R161) and nothing by which a command could tell what the block held before it. -/

namespace Sys2Proof.Machine

/-! ### A reset behind the bytes on the stream -/

section
variable {s : State} {bs : List Byte} {time : ResetTime} {rest : List HostEvent}

theorem fetchBytes_of_reset (hin : s.input = bs.map .byte ++ .reset time :: rest) : fetchBytes s = bs := by
  rw [fetchBytes, hin, leadingBytes_map_append, leadingBytes_reset, List.append_nil]

theorem awaitHost_of_reset (hin : s.input = bs.map .byte ++ .reset time :: rest) :
    awaitHost s = .next (resetEvent rest s) := by
  have hdrop : s.input.drop (fetchBytes s).length = .reset time :: rest := by
    rw [fetchBytes_of_reset hin, hin, ← List.length_map (f := HostEvent.byte), List.drop_left]
  rw [awaitHost, hdrop]

/-- A reset that arrives after fewer than `2 + LEN` bytes is the next thing to happen, whatever its mark (R162). -/
theorem step_partial_reset (hin : s.input = bs.map .byte ++ .reset time :: rest)
    (hpart : bs.length < 2 ∨ ∃ op len p, bs = op :: len :: p ∧ p.length < len.toNat) :
    step s = .next (resetEvent rest s) := by
  have hshort : decode (fetchBytes s) = .short := by rw [fetchBytes_of_reset hin, decode_of_short hpart]
  rw [step_of_short hshort, awaitHost_of_reset hin]

/-- With no byte ahead of it, the reset event is all the step does. -/
theorem step_reset_first (hin : s.input = .reset time :: rest) : step s = .next (resetEvent rest s) :=
  step_partial_reset (bs := []) hin (.inl Nat.two_pos)

end

/-! ### What a reset abandons and what it leaves -/

/-- Settles O59: fewer than `2 + LEN` bytes are dropped by the reset, and a whole packet is abandoned by one marked as arriving while
it is performed. -/
theorem resetAbandonsTheCommandInHand : Obligations.ResetAbandonsTheCommandInHand := by
  intro s bs time rest hin hbytes
  have hstep : step s = .next (resetEvent rest s) := by
    obtain hfew | ⟨op, len, p, rfl, hless | ⟨hwhole, rfl⟩⟩ := hbytes
    · exact step_partial_reset hin (.inl hfew)
    · exact step_partial_reset hin (.inr ⟨op, len, p, rfl, hless⟩)
    · rw [← packet_eq hwhole] at hin
      exact step_packet_abandoned (by omega) hin
  exact ⟨hstep, rfl, rfl⟩

/-- Settles O9: the step is the reset event. -/
theorem resetDropsThePartialPacketKeyAndDigest : Obligations.ResetDropsThePartialPacketKeyAndDigest := by
  intro s bs time rest hin hpart
  exact ⟨resetEvent rest s, step_partial_reset hin hpart, rfl, rfl, rfl, rfl⟩

/-- Settles O58: both steps are the reset event, which leaves states that agree. -/
theorem resetLeavesNothingToObserve : Obligations.ResetLeavesNothingToObserve := by
  intro s s' t t' time time' rest hin hin' ht ht'
  cases ht.symm.trans (step_reset_first hin)
  cases ht'.symm.trans (step_reset_first hin')
  exact resetEvent_agree rest s s'

end Sys2Proof.Machine
end
